-- ==== Sys2Proof/Word.lean ====
section
/-! DEFINITION. The widths of the machine's values (00_scope.md R5, R7; 30_encoding.md R81, R83): everything the
spec adds, shifts or masks is a bit vector, and every one of them is unsigned (R7). -/

namespace Sys2Proof

/-- One byte of memory, one general register, one timer, the immediate `kk`. -/
abbrev Byte := BitVec 8

/-- A 16-bit register value (`I`, `PC`, `SP`) or a 16-bit opcode. -/
abbrev Word := BitVec 16

/-- The 12-bit immediate `nnn`, a byte address 0x000 to 0xFFF (30_encoding.md R83). -/
abbrev Addr12 := BitVec 12

/-- A four-bit field: the immediate `n`, a sub-opcode, a key value 0 to 15. -/
abbrev Nibble := BitVec 4

/-- A general register's number, 0 to 15 (10_state.md R20). -/
abbrev Reg := Fin 16

/-- `VF`, the register the sprite draw also writes as a flag (10_state.md R23). -/
abbrev Reg.vf : Reg := 15

/-- `V0`, the register `Bnnn` adds to its target (10_state.md R22). -/
abbrev Reg.v0 : Reg := 0

end Sys2Proof
end

