-- ==== Sys2Proof/Machine/Params.lean ====
section
/-! DEFINITION. The named parameters of 00_scope.md R6 whose default every rule of the spec states, with the rule's
default as their value (log 10). A rule's alternative reading is the other value. -/

namespace Sys2Proof.Params

/-- `HALT_ADVANCES_PC` (92_eei_decisions.md D2): does the halting fetch move `PC` past the sentinel. -/
@[simp] def haltAdvancesPc : Bool := false

/-- `ICOUNT_RESET` (D3): the instruction counter's value after reset. -/
@[simp] def icountReset : BitVec 3 := 0

/-- `BLOCK_ADVANCES_I` (D15): do `Fx55` and `Fx65` add `x + 1` to `I`. -/
@[simp] def blockAdvancesI : Bool := false

/-- `DRW_RIGHT_EDGE` (D17 part g): `false` is `spill`, the right part of a row in byte column 7 goes to the next
address; `true` is `clip`, it is not drawn. -/
@[simp] def drwClipsRightEdge : Bool := false

/-- `CHANGED_ON_ANY_FB_WRITE` (D18): does every write into the framebuffer set `changed`. -/
@[simp] def changedOnAnyFbWrite : Bool := true

/-- `SKIP_IGNORES_LOW_NIBBLE` (D21): do families 5 and 9 leave their low nibble untested. -/
@[simp] def skipIgnoresLowNibble : Bool := false

end Sys2Proof.Params
end

