-- ==== Sys2Proof/Syntax.lean ====
section
/-! DEFINITION. The instructions: one constructor for each of the 41 rows of 30_encoding.md R84, in the table's order,
with every operand field the row's format has, so that no bit of a word is lost (a field the instruction ignores, as
the `y` of `SHR` and `SHL`, is an operand here all the same). -/

namespace Sys2Proof

/-- An instruction (30_encoding.md R84). Register fields are register numbers; immediates keep their own width. -/
inductive Instr where
  /-- row 1, `0000`: the halt sentinel -/
  | halt
  /-- row 2, `00E0` -/
  | cls
  /-- row 3, `00EE` -/
  | ret
  /-- row 4, `0nnn`: a no-op -/
  | sys (nnn : Addr12)
  /-- row 5, `1nnn` -/
  | jp (nnn : Addr12)
  /-- row 6, `2nnn` -/
  | call (nnn : Addr12)
  /-- row 7, `3xkk` -/
  | seImm (x : Reg) (kk : Byte)
  /-- row 8, `4xkk` -/
  | sneImm (x : Reg) (kk : Byte)
  /-- row 9, `5xy0` -/
  | seReg (x y : Reg)
  /-- row 10, `6xkk` -/
  | ldImm (x : Reg) (kk : Byte)
  /-- row 11, `7xkk` -/
  | addImm (x : Reg) (kk : Byte)
  /-- row 12, `8xy0` -/
  | ldReg (x y : Reg)
  /-- row 13, `8xy1` -/
  | orReg (x y : Reg)
  /-- row 14, `8xy2` -/
  | andReg (x y : Reg)
  /-- row 15, `8xy3` -/
  | xorReg (x y : Reg)
  /-- row 16, `8xy4` -/
  | addReg (x y : Reg)
  /-- row 17, `8xy5` -/
  | subReg (x y : Reg)
  /-- row 18, `8xy6`: `y` is ignored -/
  | shr (x y : Reg)
  /-- row 19, `8xy7` -/
  | subn (x y : Reg)
  /-- row 20, `8xyE`: `y` is ignored -/
  | shl (x y : Reg)
  /-- row 21, `9xy0` -/
  | sneReg (x y : Reg)
  /-- row 22, `Annn` -/
  | ldI (nnn : Addr12)
  /-- row 23, `Bnnn` -/
  | jpV0 (nnn : Addr12)
  /-- row 24, `Cxkk` -/
  | rnd (x : Reg) (kk : Byte)
  /-- row 25, `Dxyn` -/
  | drw (x y : Reg) (n : Nibble)
  /-- row 26, `Ex9E` -/
  | skp (x : Reg)
  /-- row 27, `ExA1` -/
  | sknp (x : Reg)
  /-- row 28, `Fx07` -/
  | ldVxDt (x : Reg)
  /-- row 29, `Fx0A` -/
  | ldVxK (x : Reg)
  /-- row 30, `Fx15` -/
  | ldDtVx (x : Reg)
  /-- row 31, `Fx18` -/
  | ldStVx (x : Reg)
  /-- row 32, `Fx1E` -/
  | addI (x : Reg)
  /-- row 33, `Fx29` -/
  | ldF (x : Reg)
  /-- row 34, `Fx33` -/
  | ldB (x : Reg)
  /-- row 35, `Fx55` -/
  | ldMemVx (x : Reg)
  /-- row 36, `Fx65` -/
  | ldVxMem (x : Reg)
  /-- row 37, `5xy1` to `5xyF`: reserved, a no-op -/
  | rsv5 (x y : Reg) (sub : Nibble)
  /-- row 38, `8xy8` to `8xyD`, `8xyF`: reserved, a no-op -/
  | rsv8 (x y : Reg) (sub : Nibble)
  /-- row 39, `9xy1` to `9xyF`: reserved, a no-op -/
  | rsv9 (x y : Reg) (sub : Nibble)
  /-- row 40, `Ex__` other than `Ex9E`, `ExA1`: reserved, a no-op -/
  | rsvE (x : Reg) (sub : Byte)
  /-- row 41, `Fx__` not listed: reserved, a no-op -/
  | rsvF (x : Reg) (sub : Byte)
  deriving DecidableEq, Repr

end Sys2Proof
end

