-- ==== Sys2Proof/WellFormed.lean ====
section
/-! DEFINITION. Which terms of `Instr` are instructions. The types of the fields hold every other bound; what is left
to check is that a row which the map of 30_encoding.md R84 tries last does not claim a word of an earlier row. -/

namespace Sys2Proof

/-- The low nibbles that the nine defined rows of family 8 use (30_encoding.md R84, rows 12 to 20). -/
def aluSubOpcodes : List Nibble := [0x0, 0x1, 0x2, 0x3, 0x4, 0x5, 0x6, 0x7, 0xE]

/-- The low bytes that the two defined rows of family E use (R84, rows 26 and 27). -/
def keySubOpcodes : List Byte := [0x9E, 0xA1]

/-- The low bytes that the nine defined rows of family F use (R84, rows 28 to 36). -/
def miscSubOpcodes : List Byte := [0x07, 0x0A, 0x15, 0x18, 0x1E, 0x29, 0x33, 0x55, 0x65]

/-- A term is well formed when no earlier row of R84 has its word: `SYS` is neither `0000`, `00E0` nor `00EE`
(41_control.md R120), and a reserved row holds none of its family's defined sub-opcodes (30_encoding.md R88). -/
def Instr.wellFormed : Instr → Bool
  | .sys nnn => nnn != 0x000 && nnn != 0x0E0 && nnn != 0x0EE
  | .rsv5 _ _ sub => sub != 0
  | .rsv8 _ _ sub => !aluSubOpcodes.contains sub
  | .rsv9 _ _ sub => sub != 0
  | .rsvE _ sub => !keySubOpcodes.contains sub
  | .rsvF _ sub => !miscSubOpcodes.contains sub
  | .halt | .cls | .ret | .jp _ | .call _ | .seImm _ _ | .sneImm _ _ | .seReg _ _ | .ldImm _ _ | .addImm _ _
  | .ldReg _ _ | .orReg _ _ | .andReg _ _ | .xorReg _ _ | .addReg _ _ | .subReg _ _ | .shr _ _ | .subn _ _
  | .shl _ _ | .sneReg _ _ | .ldI _ | .jpV0 _ | .rnd _ _ | .drw _ _ _ | .skp _ | .sknp _ | .ldVxDt _ | .ldVxK _
  | .ldDtVx _ | .ldStVx _ | .addI _ | .ldF _ | .ldB _ | .ldMemVx _ | .ldVxMem _ => true

end Sys2Proof
end

