-- ==== Sys2Proof/Decode.lean ====
section
/-! DEFINITION. Decoding and encoding (30_encoding.md R80 to R90): the opcode's fields, the decoder, total on any
bytes, the encoder, and the 41 rows of R84 as data. -/

namespace Sys2Proof

/-! ## Byte order and fields -/

/-- Two bytes as one value, big-endian: the byte at the lower address is bits 15:8 (20_memory.md R55). -/
def joinBytes (hi lo : Byte) : Word := hi ++ lo

/-- Bits 15:8 of a word, the byte stored at the lower address (R55). -/
def hiByte (w : Word) : Byte := w.extractLsb' 8 8

/-- Bits 7:0 of a word, the byte stored at the higher address (R55). -/
def loByte (w : Word) : Byte := w.extractLsb' 0 8

/-- `fam` = op[15:12] (30_encoding.md R81). -/
def famOf (op : Word) : Nibble := op.extractLsb' 12 4

/-- `x` = op[11:8], a register number (R81). -/
def xOf (op : Word) : Reg := (op.extractLsb' 8 4).toFin

/-- `y` = op[7:4], a register number (R81). -/
def yOf (op : Word) : Reg := (op.extractLsb' 4 4).toFin

/-- `n` = op[3:0] (R81). -/
def nOf (op : Word) : Nibble := op.extractLsb' 0 4

/-- `kk` = op[7:0] (R81). -/
def kkOf (op : Word) : Byte := op.extractLsb' 0 8

/-- `nnn` = op[11:0] (R81). -/
def nnnOf (op : Word) : Addr12 := op.extractLsb' 0 12

/-! ## The decoder -/

/-- Family 0 (R84 rows 1 to 4). -/
def decodeFamily0 (op : Word) : Instr :=
  if op = 0x0000 then .halt
  else if op = 0x00E0 then .cls
  else if op = 0x00EE then .ret
  else .sys (nnnOf op)

/-- Family 5 (R84 rows 9 and 37). -/
def decodeFamily5 (op : Word) : Instr :=
  if nOf op = 0x0 ∨ Params.skipIgnoresLowNibble = true then .seReg (xOf op) (yOf op)
  else .rsv5 (xOf op) (yOf op) (nOf op)

/-- Family 8 (R84 rows 12 to 20 and 38), by its low nibble (30_encoding.md R85). -/
def decodeFamily8 (op : Word) : Instr :=
  match (nOf op).toNat with
  | 0x0 => .ldReg (xOf op) (yOf op)
  | 0x1 => .orReg (xOf op) (yOf op)
  | 0x2 => .andReg (xOf op) (yOf op)
  | 0x3 => .xorReg (xOf op) (yOf op)
  | 0x4 => .addReg (xOf op) (yOf op)
  | 0x5 => .subReg (xOf op) (yOf op)
  | 0x6 => .shr (xOf op) (yOf op)
  | 0x7 => .subn (xOf op) (yOf op)
  | 0xE => .shl (xOf op) (yOf op)
  | _ => .rsv8 (xOf op) (yOf op) (nOf op)

/-- Family 9 (R84 rows 21 and 39). -/
def decodeFamily9 (op : Word) : Instr :=
  if nOf op = 0x0 ∨ Params.skipIgnoresLowNibble = true then .sneReg (xOf op) (yOf op)
  else .rsv9 (xOf op) (yOf op) (nOf op)

/-- Family E (R84 rows 26, 27 and 40). -/
def decodeFamilyE (op : Word) : Instr :=
  if kkOf op = 0x9E then .skp (xOf op)
  else if kkOf op = 0xA1 then .sknp (xOf op)
  else .rsvE (xOf op) (kkOf op)

/-- Family F (R84 rows 28 to 36 and 41). -/
def decodeFamilyF (op : Word) : Instr :=
  if kkOf op = 0x07 then .ldVxDt (xOf op)
  else if kkOf op = 0x0A then .ldVxK (xOf op)
  else if kkOf op = 0x15 then .ldDtVx (xOf op)
  else if kkOf op = 0x18 then .ldStVx (xOf op)
  else if kkOf op = 0x1E then .addI (xOf op)
  else if kkOf op = 0x29 then .ldF (xOf op)
  else if kkOf op = 0x33 then .ldB (xOf op)
  else if kkOf op = 0x55 then .ldMemVx (xOf op)
  else if kkOf op = 0x65 then .ldVxMem (xOf op)
  else .rsvF (xOf op) (kkOf op)

/-- The instruction a word stands for. Every one of the 65536 words stands for one (R84, R88, R90). -/
def decodeWord (op : Word) : Instr :=
  match (famOf op).toNat with
  | 0x0 => decodeFamily0 op
  | 0x1 => .jp (nnnOf op)
  | 0x2 => .call (nnnOf op)
  | 0x3 => .seImm (xOf op) (kkOf op)
  | 0x4 => .sneImm (xOf op) (kkOf op)
  | 0x5 => decodeFamily5 op
  | 0x6 => .ldImm (xOf op) (kkOf op)
  | 0x7 => .addImm (xOf op) (kkOf op)
  | 0x8 => decodeFamily8 op
  | 0x9 => decodeFamily9 op
  | 0xA => .ldI (nnnOf op)
  | 0xB => .jpV0 (nnnOf op)
  | 0xC => .rnd (xOf op) (kkOf op)
  | 0xD => .drw (xOf op) (yOf op) (nOf op)
  | 0xE => decodeFamilyE op
  | _ => decodeFamilyF op

/-- Why a list of bytes holds no instruction at its front. -/
inductive DecodeError where
  /-- fewer than two bytes are left: every instruction is exactly two bytes (30_encoding.md R80); the machine's
  fetch always has two, so no step meets it (safe; log 18) -/
  | truncated
  deriving DecidableEq, Repr

/-- Decode the instruction at the front of a list of bytes and give back the bytes after it. -/
def decode : List Byte → Except DecodeError (Instr × List Byte)
  | hi :: lo :: rest => .ok (decodeWord (joinBytes hi lo), rest)
  | [_] => .error .truncated
  | [] => .error .truncated

/-- The instruction the decoder reads from an instruction whose bits, numbered as spec/opcode_table.json numbers them,
are `w`; bits from `nbits` up are 0. The one word is laid out big-endian (20_memory.md R55; log 19). -/
def decodeTableWord (nbits w : Nat) : Option Instr :=
  match decode [hiByte (BitVec.ofNat 16 (w % 2 ^ nbits)), loByte (BitVec.ofNat 16 (w % 2 ^ nbits))] with
  | .ok (i, _) => some i
  | .error _ => none

/-! ## The encoder -/

/-- A register number as its four-bit field. -/
def regBits (x : Reg) : Nibble := BitVec.ofFin x

/-- Format A: family and `nnn` (30_encoding.md R82). -/
def formA (fam : Nibble) (nnn : Addr12) : Word := fam ++ nnn

/-- Formats XK and XS: family, `x` and a low byte (R82). -/
def formXK (fam : Nibble) (x : Reg) (kk : Byte) : Word := (fam ++ regBits x) ++ kk

/-- Formats XY and XYN: family, `x`, `y` and a low nibble (R82). -/
def formXYN (fam : Nibble) (x y : Reg) (n : Nibble) : Word := (fam ++ regBits x) ++ (regBits y ++ n)

/-- The word of an instruction, from the patterns of R84. -/
def encodeWord : Instr → Word
  | .halt => 0x0000
  | .cls => 0x00E0
  | .ret => 0x00EE
  | .sys nnn => formA 0x0 nnn
  | .jp nnn => formA 0x1 nnn
  | .call nnn => formA 0x2 nnn
  | .seImm x kk => formXK 0x3 x kk
  | .sneImm x kk => formXK 0x4 x kk
  | .seReg x y => formXYN 0x5 x y 0x0
  | .ldImm x kk => formXK 0x6 x kk
  | .addImm x kk => formXK 0x7 x kk
  | .ldReg x y => formXYN 0x8 x y 0x0
  | .orReg x y => formXYN 0x8 x y 0x1
  | .andReg x y => formXYN 0x8 x y 0x2
  | .xorReg x y => formXYN 0x8 x y 0x3
  | .addReg x y => formXYN 0x8 x y 0x4
  | .subReg x y => formXYN 0x8 x y 0x5
  | .shr x y => formXYN 0x8 x y 0x6
  | .subn x y => formXYN 0x8 x y 0x7
  | .shl x y => formXYN 0x8 x y 0xE
  | .sneReg x y => formXYN 0x9 x y 0x0
  | .ldI nnn => formA 0xA nnn
  | .jpV0 nnn => formA 0xB nnn
  | .rnd x kk => formXK 0xC x kk
  | .drw x y n => formXYN 0xD x y n
  | .skp x => formXK 0xE x 0x9E
  | .sknp x => formXK 0xE x 0xA1
  | .ldVxDt x => formXK 0xF x 0x07
  | .ldVxK x => formXK 0xF x 0x0A
  | .ldDtVx x => formXK 0xF x 0x15
  | .ldStVx x => formXK 0xF x 0x18
  | .addI x => formXK 0xF x 0x1E
  | .ldF x => formXK 0xF x 0x29
  | .ldB x => formXK 0xF x 0x33
  | .ldMemVx x => formXK 0xF x 0x55
  | .ldVxMem x => formXK 0xF x 0x65
  | .rsv5 x y sub => formXYN 0x5 x y sub
  | .rsv8 x y sub => formXYN 0x8 x y sub
  | .rsv9 x y sub => formXYN 0x9 x y sub
  | .rsvE x sub => formXK 0xE x sub
  | .rsvF x sub => formXK 0xF x sub

/-- The bytes of an instruction in ascending address order (30_encoding.md R80, 20_memory.md R55). -/
def encode (i : Instr) : List Byte := [hiByte (encodeWord i), loByte (encodeWord i)]

/-! ## The opcode map as data -/

/-- The six formats (30_encoding.md R82). -/
inductive Format where
  | z | a | xk | xy | xyn | xs
  deriving DecidableEq, Repr

/-- One row of the opcode map (R84): an opcode `op` selects it when `op &&& mask = pattern`. -/
structure MapRow where
  /-- the row's place in the order, from 1 -/
  order : Nat
  pattern : Word
  mask : Word
  format : Format
  mnemonic : String
  deriving DecidableEq, Repr

/-- Rows 1 to 11 of R84. -/
def mapRowsA : List MapRow :=
  [⟨1, 0x0000, 0xFFFF, .z, "HALT"⟩, ⟨2, 0x00E0, 0xFFFF, .z, "CLS"⟩, ⟨3, 0x00EE, 0xFFFF, .z, "RET"⟩,
   ⟨4, 0x0000, 0xF000, .a, "SYS_nnn"⟩, ⟨5, 0x1000, 0xF000, .a, "JP_nnn"⟩, ⟨6, 0x2000, 0xF000, .a, "CALL_nnn"⟩,
   ⟨7, 0x3000, 0xF000, .xk, "SE_Vx__kk"⟩, ⟨8, 0x4000, 0xF000, .xk, "SNE_Vx__kk"⟩,
   ⟨9, 0x5000, 0xF00F, .xy, "SE_Vx__Vy"⟩, ⟨10, 0x6000, 0xF000, .xk, "LD_Vx__kk"⟩,
   ⟨11, 0x7000, 0xF000, .xk, "ADD_Vx__kk"⟩]

/-- Rows 12 to 25 of R84. -/
def mapRowsB : List MapRow :=
  [⟨12, 0x8000, 0xF00F, .xy, "LD_Vx__Vy"⟩, ⟨13, 0x8001, 0xF00F, .xy, "OR_Vx__Vy"⟩,
   ⟨14, 0x8002, 0xF00F, .xy, "AND_Vx__Vy"⟩, ⟨15, 0x8003, 0xF00F, .xy, "XOR_Vx__Vy"⟩,
   ⟨16, 0x8004, 0xF00F, .xy, "ADD_Vx__Vy"⟩, ⟨17, 0x8005, 0xF00F, .xy, "SUB_Vx__Vy"⟩,
   ⟨18, 0x8006, 0xF00F, .xy, "SHR_Vx"⟩, ⟨19, 0x8007, 0xF00F, .xy, "SUBN_Vx__Vy"⟩,
   ⟨20, 0x800E, 0xF00F, .xy, "SHL_Vx"⟩, ⟨21, 0x9000, 0xF00F, .xy, "SNE_Vx__Vy"⟩,
   ⟨22, 0xA000, 0xF000, .a, "LD_I__nnn"⟩, ⟨23, 0xB000, 0xF000, .a, "JP_V0__nnn"⟩,
   ⟨24, 0xC000, 0xF000, .xk, "RND_Vx__kk"⟩, ⟨25, 0xD000, 0xF000, .xyn, "DRW_Vx__Vy__n"⟩]

/-- Rows 26 to 41 of R84. -/
def mapRowsC : List MapRow :=
  [⟨26, 0xE09E, 0xF0FF, .xs, "SKP_Vx"⟩, ⟨27, 0xE0A1, 0xF0FF, .xs, "SKNP_Vx"⟩,
   ⟨28, 0xF007, 0xF0FF, .xs, "LD_Vx__DT"⟩, ⟨29, 0xF00A, 0xF0FF, .xs, "LD_Vx__K"⟩,
   ⟨30, 0xF015, 0xF0FF, .xs, "LD_DT__Vx"⟩, ⟨31, 0xF018, 0xF0FF, .xs, "LD_ST__Vx"⟩,
   ⟨32, 0xF01E, 0xF0FF, .xs, "ADD_I__Vx"⟩, ⟨33, 0xF029, 0xF0FF, .xs, "LD_F__Vx"⟩,
   ⟨34, 0xF033, 0xF0FF, .xs, "LD_B__Vx"⟩, ⟨35, 0xF055, 0xF0FF, .xs, "LD__I___Vx"⟩,
   ⟨36, 0xF065, 0xF0FF, .xs, "LD_Vx___I"⟩, ⟨37, 0x5000, 0xF000, .xy, "RSV5"⟩, ⟨38, 0x8000, 0xF000, .xy, "RSV8"⟩,
   ⟨39, 0x9000, 0xF000, .xy, "RSV9"⟩, ⟨40, 0xE000, 0xF000, .xs, "RSVE"⟩, ⟨41, 0xF000, 0xF000, .xs, "RSVF"⟩]

/-- The complete map, in the order in which its rows are tried (R84). -/
def opcodeMap : List MapRow := mapRowsA ++ mapRowsB ++ mapRowsC

/-- The row an opcode selects: the first that matches (R84). -/
def firstRow (op : Word) : Option MapRow := opcodeMap.find? fun r => op &&& r.mask == r.pattern

/-- The place of an instruction's row in the map (R84). -/
def Instr.row : Instr → Nat
  | .halt => 1 | .cls => 2 | .ret => 3 | .sys _ => 4 | .jp _ => 5 | .call _ => 6
  | .seImm _ _ => 7 | .sneImm _ _ => 8 | .seReg _ _ => 9 | .ldImm _ _ => 10 | .addImm _ _ => 11
  | .ldReg _ _ => 12 | .orReg _ _ => 13 | .andReg _ _ => 14 | .xorReg _ _ => 15 | .addReg _ _ => 16
  | .subReg _ _ => 17 | .shr _ _ => 18 | .subn _ _ => 19 | .shl _ _ => 20 | .sneReg _ _ => 21
  | .ldI _ => 22 | .jpV0 _ => 23 | .rnd _ _ => 24 | .drw _ _ _ => 25 | .skp _ => 26 | .sknp _ => 27
  | .ldVxDt _ => 28 | .ldVxK _ => 29 | .ldDtVx _ => 30 | .ldStVx _ => 31 | .addI _ => 32 | .ldF _ => 33
  | .ldB _ => 34 | .ldMemVx _ => 35 | .ldVxMem _ => 36 | .rsv5 _ _ _ => 37 | .rsv8 _ _ _ => 38
  | .rsv9 _ _ _ => 39 | .rsvE _ _ => 40 | .rsvF _ _ => 41

/-- The operand fields of an instruction, by the fields its row of R84 gives it. -/
inductive Fields where
  /-- no field -/
  | none
  | nnn (nnn : Addr12)
  | xkk (x : Reg) (kk : Byte)
  | xy (x y : Reg) (low : Nibble)
  | xs (x : Reg) (low : Byte)
  deriving DecidableEq, Repr

/-- The fields a format reads out of an opcode (30_encoding.md R81, R82). -/
def Format.fields (f : Format) (op : Word) : Fields :=
  match f with
  | .z => .none
  | .a => .nnn (nnnOf op)
  | .xk => .xkk (xOf op) (kkOf op)
  | .xy => .xy (xOf op) (yOf op) (nOf op)
  | .xyn => .xy (xOf op) (yOf op) (nOf op)
  | .xs => .xs (xOf op) (kkOf op)

/-- The fields an instruction carries, its sub-opcode among them (R82, R84). -/
def Instr.fields : Instr → Fields
  | .halt | .cls | .ret => .none
  | .sys nnn | .jp nnn | .call nnn | .ldI nnn | .jpV0 nnn => .nnn nnn
  | .seImm x kk | .sneImm x kk | .ldImm x kk | .addImm x kk | .rnd x kk => .xkk x kk
  | .seReg x y => .xy x y 0x0
  | .ldReg x y => .xy x y 0x0
  | .orReg x y => .xy x y 0x1
  | .andReg x y => .xy x y 0x2
  | .xorReg x y => .xy x y 0x3
  | .addReg x y => .xy x y 0x4
  | .subReg x y => .xy x y 0x5
  | .shr x y => .xy x y 0x6
  | .subn x y => .xy x y 0x7
  | .shl x y => .xy x y 0xE
  | .sneReg x y => .xy x y 0x0
  | .drw x y n => .xy x y n
  | .skp x => .xs x 0x9E
  | .sknp x => .xs x 0xA1
  | .ldVxDt x => .xs x 0x07
  | .ldVxK x => .xs x 0x0A
  | .ldDtVx x => .xs x 0x15
  | .ldStVx x => .xs x 0x18
  | .addI x => .xs x 0x1E
  | .ldF x => .xs x 0x29
  | .ldB x => .xs x 0x33
  | .ldMemVx x => .xs x 0x55
  | .ldVxMem x => .xs x 0x65
  | .rsv5 x y sub | .rsv8 x y sub | .rsv9 x y sub => .xy x y sub
  | .rsvE x sub | .rsvF x sub => .xs x sub

end Sys2Proof
end

