-- ==== Sys2Proof/Config.lean ====
section
/-! DEFINITION. What is fixed for the machine: the fixed parameters of 00_scope.md R5 as named constants, and the
FREE VALUES the spec leaves to the environment (00_scope.md R6, 93_implementation_defined.md U1, U7, U8, U9). A free
value has no body: nothing can be proved of it, so what is proved holds whatever it is. -/

namespace Sys2Proof.Config

/-- `MEM_SIZE`: addresses 0x000 to 0xFFF exist (R5, 20_memory.md R50). -/
@[simp] abbrev memSize : Nat := 4096

/-- `PROG_BASE`: load address of the program and reset value of `PC` (R5). -/
@[simp] abbrev progBase : Nat := 0x200

/-- `STACK_BASE`: reset value of `SP` (R5). -/
@[simp] abbrev stackBase : Nat := 0xEA0

/-- `DISPLAY_START`: the first framebuffer byte (R5, 20_memory.md R52). -/
@[simp] abbrev displayStart : Nat := 0xF00

/-- Framebuffer size in bytes: 32 rows of 8 bytes (R5, 20_memory.md R60). -/
@[simp] abbrev displayBytes : Nat := 256

/-- `SCREEN_W`, in pixels (R5). -/
@[simp] abbrev screenW : Nat := 64

/-- `SCREEN_H`, in pixels (R5). -/
@[simp] abbrev screenH : Nat := 32

/-- FREE VALUE. The byte the launch image `IMAGE` holds at an address the loader did not fix: unspecified, the same
at every read until something writes the address (20_memory.md R53, 70_reset_and_hazards.md R244, D22; log 1). -/
opaque imageByte : Nat → Byte

/-- FREE VALUE. The answer to the n-th `Rnd()` of the host's own, under no law (44_index_random.md R161, D20; log 3). -/
opaque rndByte : Nat → Byte

/-- FREE VALUE. What the n-th sample of the key port finds: `none` when `key_valid` is 0, else `key_code`
(60_exceptions.md R221, R222, D19; log 3). -/
opaque keyPort : Nat → Option Nibble

/-- FREE VALUE. The byte that the n-th read at an address of 4096 or more answers (20_memory.md R57, D4; log 4). -/
opaque strayByte : Nat → Byte

end Sys2Proof.Config
end

