-- ==== Sys2Proof/Machine/State.lean ====
section
/-! DEFINITION. The machine's state (10_state.md R20 to R37, 20_memory.md R50) and the state right after reset
(R36, 70_reset_and_hazards.md R241). Plain data throughout. -/

namespace Sys2Proof.Machine

/-- The run loop's own state: `Reset`, `Running`, `Halted` (10_state.md R34). -/
inductive RunState where
  | reset | running | halted
  deriving DecidableEq, Repr

/-- Memory: the bytes the loader or an instruction has put there, as (address, byte) pairs, addresses strictly rising,
none of them what an unlisted address reads as (`Memory.wf`, `Memory.unlisted` in Machine/Memory.lean; log 1, log 2). -/
abbrev Memory := List Host.Cell

/-- The environment's answers to one kind of query, the MODEL'S OWN state (log 3). `given` are answers the host has
already laid down, oldest first; `taken` counts the answers taken so far. When none is given, the answer is a free
value of Config applied to `taken`. -/
structure Draws (α : Type) where
  given : List α
  taken : Nat
  deriving DecidableEq, Repr

/-- Nothing given, nothing taken (log 3). -/
def Draws.none (α : Type) : Draws α := { given := [], taken := 0 }

/-- The machine's state. The index register `I` is the field `i`. -/
structure State where
  /-- `V0` to `VF` (R20) -/
  v : Vector Byte 16
  /-- `I` (R28) -/
  i : Word
  /-- `PC` (R25) -/
  pc : Word
  /-- `SP` (R29) -/
  sp : Word
  /-- `DT`, the delay timer (R31) -/
  dt : Byte
  /-- `ST`, the sound timer (R31) -/
  st : Byte
  /-- the changed flag (R32) -/
  changed : Bool
  /-- the instruction counter modulo 8 (R33) -/
  icount : BitVec 3
  /-- the run loop's state (R34) -/
  run : RunState
  /-- the sticky stack-underflow diagnostic (R35) -/
  uflow : Bool
  /-- the 4096 bytes (20_memory.md R50) -/
  mem : Memory
  /-- the register an `Fx0A` waits to write while the core is held in it (46_keypad.md R182; log 5) -/
  hold : Option Reg
  /-- the output pulse `redraw_req` of the last step (60_exceptions.md R223; log 8) -/
  redrawReq : Bool
  /-- answers to `Rnd()` (44_index_random.md R161; log 3) -/
  rnd : Draws Byte
  /-- samples of the key port, `none` or a key (60_exceptions.md R221, R222; log 3) -/
  keys : Draws (Option Nibble)
  /-- bytes answered to reads at 4096 and above (20_memory.md R57; log 4) -/
  stray : Draws Byte
  deriving DecidableEq, Repr

/-- Why a step gives no next state. The hardware has no fault of any kind (60_exceptions.md R210). -/
inductive Fault where
  /-- Raised by the step alone, by no instruction: the machine is in `Halted`, in which "the core makes no step"
  (10_state.md R34), and only a reset by the host leaves it. Safe: nothing is claimed of a step that does not exist
  (log 6). -/
  | halted
  deriving DecidableEq, Repr

/-- Why the model gives an instruction no meaning. -/
inductive Refusal where
  /-- An instruction without a meaning yet, by its mnemonic. No arm of `exec` raises it: every instruction has its
  meaning. Safe. -/
  | notModelled (mnemonic : String)
  deriving DecidableEq, Repr

/-- What a step or an instruction answers. -/
abbrev Answer := Host.Outcome State Fault Refusal

/-- The machine right after reset (10_state.md R36, 70_reset_and_hazards.md R241), with no byte of memory listed.
`icount` and `uflow` are the spec's decisions D3 and D8 (log 9); `hold`, `redrawReq`, `rnd`, `keys` and `stray` are
log 3, 5 and 8. -/
def State.reset : State where
  v := Vector.replicate 16 0
  i := 0
  pc := 0x200
  sp := 0xEA0
  dt := 0
  st := 0
  changed := true
  icount := Params.icountReset
  run := .running
  uflow := false
  mem := []
  hold := none
  redrawReq := false
  rnd := Draws.none Byte
  keys := Draws.none (Option Nibble)
  stray := Draws.none Byte

end Sys2Proof.Machine
end

