-- ==== Sys2Proof/Machine/Memory.lean ====
section
/-! DEFINITION. Memory as a canonical list of (address, byte) pairs: what an unlisted address reads as, reading,
writing, and the canonical form (20_memory.md R50 to R54). -/

namespace Sys2Proof.Machine

/-- Glyphs 0 to 7 of the glyph table, five bytes each (20_memory.md R54; log 2). -/
def glyphsLow : List Byte :=
  [0xF0, 0x90, 0x90, 0x90, 0xF0] ++ [0x20, 0x60, 0x20, 0x20, 0x70] ++
  [0xF0, 0x10, 0xF0, 0x80, 0xF0] ++ [0xF0, 0x10, 0xF0, 0x10, 0xF0] ++
  [0x90, 0x90, 0xF0, 0x10, 0x10] ++ [0xF0, 0x80, 0xF0, 0x10, 0xF0] ++
  [0xF0, 0x80, 0xF0, 0x90, 0xF0] ++ [0xF0, 0x10, 0x20, 0x40, 0x40]

/-- Glyphs 8 to F (R54; log 2). -/
def glyphsHigh : List Byte :=
  [0xF0, 0x90, 0xF0, 0x90, 0xF0] ++ [0xF0, 0x90, 0xF0, 0x10, 0xF0] ++
  [0xF0, 0x90, 0xF0, 0x90, 0x90] ++ [0xE0, 0x90, 0xE0, 0x90, 0xE0] ++
  [0xF0, 0x80, 0x80, 0x80, 0xF0] ++ [0xE0, 0x90, 0x90, 0x90, 0xE0] ++
  [0xF0, 0x80, 0xF0, 0x80, 0xF0] ++ [0xF0, 0x80, 0xF0, 0x80, 0x80]

/-- The glyph table, the 80 bytes at 0x000 to 0x04F (R52, R54). -/
def glyphTable : List Byte := glyphsLow ++ glyphsHigh

/-- What an unlisted address reads as, the ONE definition of it: the glyph table at 0x000 to 0x04F (20_memory.md R53;
log 2), and no value elsewhere, where the byte is the launch image's and unspecified (R53; log 1). -/
def Memory.unlisted (a : Nat) : Option Byte := glyphTable[a]?

/-- The byte listed at an address. -/
def Memory.find : Memory → Nat → Option Byte
  | [], _ => none
  | (k, b) :: m, a => if k = a then some b else Memory.find m a

/-- The known byte at an address: the listed one, else what an unlisted address reads as. -/
def Memory.read (m : Memory) (a : Nat) : Option Byte :=
  match Memory.find m a with
  | some b => some b
  | none => Memory.unlisted a

/-- The list without an address. -/
def Memory.erase (m : Memory) (a : Nat) : Memory := m.filter fun c => c.1 != a

/-- The list with a byte at an address, in its place in the rising order. -/
def Memory.insert : Memory → Nat → Byte → Memory
  | [], a, b => [(a, b)]
  | (k, c) :: m, a, b =>
    if a < k then (a, b) :: (k, c) :: m
    else if a = k then (a, b) :: m
    else (k, c) :: Memory.insert m a b

/-- One byte of memory written; a byte that an unlisted address reads as anyway is not listed. -/
def Memory.write (m : Memory) (a : Nat) (b : Byte) : Memory :=
  if Memory.unlisted a = some b then Memory.erase m a else Memory.insert m a b

/-- Every address of the list is at least `lo` and below 4096, addresses strictly rise, and no entry is what an
unlisted address reads as. -/
def Memory.wfFrom : Nat → Memory → Bool
  | _, [] => true
  | lo, (k, b) :: m => decide (lo ≤ k) && decide (k < 4096) && (Memory.unlisted k != some b) && Memory.wfFrom (k + 1) m

/-- The canonical form: equal memories are equal lists. -/
def Memory.wf (m : Memory) : Bool := Memory.wfFrom 0 m

end Sys2Proof.Machine
end

