-- ==== Sys2Proof/Machine/Ops.lean ====
section
/-! DEFINITION. The named operations over registers, memory and the environment that every meaning is built of: the
primitives of 00_scope.md R8. There is no exception to take and none to return from (60_exceptions.md R210, R211);
what stands in that place is the one diagnostic, `State.reportUnderflow` (R212). -/

namespace Sys2Proof.Machine

/-! ## The environment's answers -/

/-- The answer the next query gets: the oldest given one, else the free value for this query (log 3). -/
def Draws.next {α : Type} (free : Nat → α) (d : Draws α) : α :=
  match d.given with
  | a :: _ => a
  | [] => free d.taken

/-- The answers after one query. -/
def Draws.advance {α : Type} (d : Draws α) : Draws α :=
  { given := d.given.tail, taken := d.taken + 1 }

/-- The byte `Rnd()` returns (00_scope.md R8, 60_exceptions.md R224). -/
def State.rndByte (s : State) : Byte := s.rnd.next Config.rndByte

/-- The state after one `Rnd()`. -/
def State.afterRnd (s : State) : State := { s with rnd := s.rnd.advance }

/-- What a sample of the key port finds (60_exceptions.md R221, R222). -/
def State.keySample (s : State) : Option Nibble := s.keys.next Config.keyPort

/-- The state after one sample of the key port. -/
def State.afterKey (s : State) : State := { s with keys := s.keys.advance }

/-! ## Registers -/

/-- `V[x]` (00_scope.md R8, 10_state.md R20). -/
def State.readV (s : State) (x : Reg) : Byte := s.v.get x

/-- `V[x] <- b` (R8, R20). -/
def State.writeV (s : State) (x : Reg) (b : Byte) : State := { s with v := s.v.set x.val b x.isLt }

/-- `I <- w` (R8, 10_state.md R28). -/
def State.writeI (s : State) (w : Word) : State := { s with i := w }

/-- `pc <- target` (R8, 10_state.md R25). -/
def State.jumpTo (s : State) (target : Word) : State := { s with pc := target }

/-- `pc <- PC + 2`, modulo 65536: the fetch's advance and a taken skip (40_run_loop.md R102, 42_skip.md R134). -/
def State.advancePc (s : State) : State := { s with pc := s.pc + 2 }

/-- A skip: two more bytes when the condition holds (42_skip.md R130 to R134). -/
def State.skipIf (s : State) (c : Bool) : State := if c then s.advancePc else s

/-! ## Memory -/

/-- The byte that memory holds at an address: the known one, else the launch image's, which is unspecified
(20_memory.md R50, R53; log 1). -/
def State.byteAt (s : State) (a : Nat) : Byte := (Memory.read s.mem a).getD (Config.imageByte a)

/-- `MemRead(addr, 1)`, the value: the byte of memory below 4096, a fresh unspecified byte from 4096 on
(00_scope.md R8, 20_memory.md R57; log 4). -/
def State.readByte (s : State) (a : Nat) : Byte :=
  if a < Config.memSize then s.byteAt a else s.stray.next Config.strayByte

/-- `MemRead(addr, 1)`, the state after it: a read outside the memory takes one draw, any other read changes
nothing (20_memory.md R56, R57). -/
def State.afterRead (s : State) (a : Nat) : State :=
  if a < Config.memSize then s else { s with stray := s.stray.advance }

/-- `MemRead(addr, 2)`, the value: big-endian, the two bytes read in ascending order, the second address not wrapped
(00_scope.md R8, R9; 20_memory.md R55, R56). -/
def State.readWord (s : State) (a : Nat) : Word :=
  joinBytes (s.readByte a) ((s.afterRead a).readByte (a + 1))

/-- `MemRead(addr, 2)`, the state after it. -/
def State.afterReadWord (s : State) (a : Nat) : State := (s.afterRead a).afterRead (a + 1)

/-- Does a write to this address set `changed`: 0xF00 to 0xFFF (10_state.md R32; log 10 for the parameter). -/
def writeMarksChanged (a : Nat) : Bool := decide (Config.displayStart ≤ a) && Params.changedOnAnyFbWrite

/-- `MemWrite(addr, 1, b)`: a byte below 4096 is written and marks the framebuffer changed when it lies there, a
byte from 4096 on is dropped (00_scope.md R8, 20_memory.md R56, R58). -/
def State.memWrite (s : State) (a : Nat) (b : Byte) : State :=
  if a < Config.memSize then
    { s with mem := Memory.write s.mem a b, changed := s.changed || writeMarksChanged a }
  else s

/-- `MemWrite(addr, 2, w)`: high byte first, at the lower address (00_scope.md R8, 20_memory.md R55). -/
def State.memWriteWord (s : State) (a : Nat) (w : Word) : State :=
  (s.memWrite a (hiByte w)).memWrite (a + 1) (loByte w)

/-! ## The stack and its diagnostic -/

/-- `report StackUnderflow` (00_scope.md R8, 60_exceptions.md R212): the sticky bit, and nothing else. -/
def State.reportUnderflow (s : State) : State := { s with uflow := true }

/-- Push a word at `SP` and `SP + 1`, then add 2 to `SP` (41_control.md R123, 10_state.md R29; log 15). -/
def State.push (s : State) (w : Word) : State :=
  let t := s.memWriteWord s.sp.toNat w
  { t with sp := t.sp + 2 }

/-- `SP <- SP - 2`, modulo 65536, whatever `SP` was (41_control.md R121; log 15). -/
def State.dropSp (s : State) : State := { s with sp := s.sp - 2 }

end Sys2Proof.Machine
end

