-- ==== Sys2Proof/Machine/Operands.lean ====
section
/-! DEFINITION. Every operand form of the spec: immediates (30_encoding.md R83), the addressing of data through `I`
(48_block.md R202), the framebuffer addresses of a sprite (45_display.md R171), and the register lists of the block
transfers (48_block.md R200, R201). Effective addresses are unbounded naturals and never wrap (00_scope.md R9). -/

namespace Sys2Proof.Machine

/-- `zext_16(nnn)` (30_encoding.md R83). -/
def addrOperand (nnn : Addr12) : Word := nnn.setWidth 16

/-- `zext_16(V[x])` (00_scope.md R8). -/
def byteToWord (b : Byte) : Word := b.setWidth 16

/-- `zext_8(k)` of a key value (46_keypad.md R180, R182). -/
def keyToByte (k : Nibble) : Byte := k.setWidth 8

/-- Effective address `I + k` (48_block.md R202, 00_scope.md R9). -/
def State.indexed (s : State) (k : Nat) : Nat := s.i.toNat + k

/-- All sixteen register numbers, ascending. -/
def allRegs : List Reg := [0, 1, 2, 3, 4, 5, 6, 7, 8, 9, 10, 11, 12, 13, 14, 15]

/-- Register numbers 0 to `x`, ascending, `x` included (48_block.md R200, R201). -/
def regsThrough (x : Reg) : List Reg := allRegs.take (x.val + 1)

/-- Sprite origin, horizontal: `V[x] mod 64` (45_display.md R172). -/
def originX (b : Byte) : Nat := b.toNat % Config.screenW

/-- Sprite origin, vertical: `V[y] mod 32` (R172). -/
def originY (b : Byte) : Nat := b.toNat % Config.screenH

/-- `sh`, the bit offset inside the byte (45_display.md R173). -/
def bitOffset (x0 : Nat) : Nat := x0 % 8

/-- `col`, the byte column (R171). -/
def byteColumn (x0 : Nat) : Nat := x0 / 8

/-- Address of the left part of sprite row `r`; `y0 + r` is not wrapped (R171, R173). -/
def spriteTarget (x0 y0 r : Nat) : Nat := Config.displayStart + (y0 + r) * 8 + byteColumn x0

/-- Left part of a sprite row: `s >> sh` (R173). -/
def leftPart (b : Byte) (sh : Nat) : Byte := b >>> sh

/-- Right part of a sprite row: `(s << (8 - sh)) mod 256` (R173). -/
def rightPart (b : Byte) (sh : Nat) : Byte := b <<< (8 - sh)

end Sys2Proof.Machine
end

