-- ==== Sys2Proof/Machine/Flags.lean ====
section
/-! DEFINITION. Every flag computation of the spec. `VF` is the only flag a program has and only the sprite draw
writes it as one (10_state.md R23, R24); `changed` and `uflow` are seen by the run loop and the host. No arithmetic
instruction computes a flag (43_alu.md R151). -/

namespace Sys2Proof.Machine

/-- Does XORing this part into this framebuffer byte turn a lit pixel off (45_display.md R174). -/
def collides (old part : Byte) : Bool := old &&& part != 0

/-- The value `VF` receives: 1 for a collision, 0 for none (R174; log 14). -/
def collisionValue (coll : Bool) : Byte := if coll then 1 else 0

/-- `V[0xF] <- coll` (45_display.md R171, R174). -/
def State.setCollision (s : State) (coll : Bool) : State := s.writeV Reg.vf (collisionValue coll)

/-- `changed <- 1`, unconditionally (45_display.md R170, R177). -/
def State.markChanged (s : State) : State := { s with changed := true }

/-- `SP - 2 < 0xEA0` on integers, that is `SP < 0xEA2` (41_control.md R121, 90_conflicts.md C10). -/
def State.popUnderflows (s : State) : Bool := decide (s.sp.toNat < Config.stackBase + 2)

end Sys2Proof.Machine
end

