-- ==== Sys2Proof/Machine/Alu.lean ====
section
/-! DEFINITION. Load immediate, add immediate and the register ALU (43_alu.md R140 to R152): unsigned 8-bit values,
wrap-around modulo 256, no flag. -/

namespace Sys2Proof.Machine

/-- Every `8xy_` instruction reads `V[x]` and `V[y]` first and then writes `V[x]` once (43_alu.md R152). -/
def State.alu (s : State) (op : Byte → Byte → Byte) (x y : Reg) : State := s.writeV x (op (s.readV x) (s.readV y))

/-- `6xkk` (R140). -/
def execLdImm (x : Reg) (kk : Byte) (s : State) : Answer := .next (s.writeV x kk)

/-- `7xkk` (R141). -/
def execAddImm (x : Reg) (kk : Byte) (s : State) : Answer := .next (s.writeV x (s.readV x + kk))

/-- `8xy0` (R142). -/
def execLdReg (x y : Reg) (s : State) : Answer := .next (s.alu (fun _ b => b) x y)

/-- `8xy1` (R143). -/
def execOrReg (x y : Reg) (s : State) : Answer := .next (s.alu (fun a b => a ||| b) x y)

/-- `8xy2` (R144). -/
def execAndReg (x y : Reg) (s : State) : Answer := .next (s.alu (fun a b => a &&& b) x y)

/-- `8xy3` (R145). -/
def execXorReg (x y : Reg) (s : State) : Answer := .next (s.alu (fun a b => a ^^^ b) x y)

/-- `8xy4` (R146). -/
def execAddReg (x y : Reg) (s : State) : Answer := .next (s.alu (fun a b => a + b) x y)

/-- `8xy5` (R147). -/
def execSubReg (x y : Reg) (s : State) : Answer := .next (s.alu (fun a b => a - b) x y)

/-- `8xy6` (R148): logical, by one place, on `V[x]`; `y` is ignored (log 13). -/
def execShr (x y : Reg) (s : State) : Answer := .next (s.alu (fun a _ => a >>> 1) x y)

/-- `8xy7` (R149). -/
def execSubn (x y : Reg) (s : State) : Answer := .next (s.alu (fun a b => b - a) x y)

/-- `8xyE` (R150): by one place, on `V[x]`; `y` is ignored (log 13). -/
def execShl (x y : Reg) (s : State) : Answer := .next (s.alu (fun a _ => a <<< 1) x y)

end Sys2Proof.Machine
end

