-- ==== Sys2Proof/Machine/Block.lean ====
section
/-! DEFINITION. Register block store and load (48_block.md R200 to R203). -/

namespace Sys2Proof.Machine

/-- Store registers, in the list's order, register `r` at `base + r` (R200). -/
def State.storeRegs (base : Nat) : List Reg → State → State
  | [], s => s
  | r :: rs, s => State.storeRegs base rs (s.memWrite (base + r.val) (s.readV r))

/-- Load registers, in the list's order, register `r` from `base + r` (R201). -/
def State.loadRegs (base : Nat) : List Reg → State → State
  | [], s => s
  | r :: rs, s => State.loadRegs base rs ((s.afterRead (base + r.val)).writeV r (s.readByte (base + r.val)))

/-- `I` after a block transfer: as it was (R200, R201; log 10 for the parameter). -/
def State.stepIndex (s : State) (x : Reg) : State :=
  if Params.blockAdvancesI then s.writeI (s.i + BitVec.ofNat 16 (x.val + 1)) else s

/-- `Fx55` (R200). -/
def execLdMemVx (x : Reg) (s : State) : Answer :=
  .next ((State.storeRegs (s.indexed 0) (regsThrough x) s).stepIndex x)

/-- `Fx65` (R201). -/
def execLdVxMem (x : Reg) (s : State) : Answer :=
  .next ((State.loadRegs (s.indexed 0) (regsThrough x) s).stepIndex x)

end Sys2Proof.Machine
end

