-- ==== Sys2Proof/Machine/Control.lean ====
section
/-! DEFINITION. Halt and control transfer (40_run_loop.md R103, 41_control.md R120 to R125). `PC` is already past the
instruction when a meaning runs (40_run_loop.md R102), but for the sentinel, which the run loop does not advance over. -/

namespace Sys2Proof.Machine

/-- `0000`: `run <- Halted` and nothing else (40_run_loop.md R103; log 10 for the parameter). -/
def execHalt (s : State) : Answer :=
  .next { s with run := .halted, pc := if Params.haltAdvancesPc then s.pc + 2 else s.pc }

/-- `0nnn`: a no-op (41_control.md R120). -/
def execSys (_nnn : Addr12) (s : State) : Answer := .next s

/-- `00EE` (41_control.md R121): report an underflow, `SP <- SP - 2`, `pc <-` the two bytes at the new `SP`. -/
def execRet (s : State) : Answer :=
  let s1 := (if s.popUnderflows then s.reportUnderflow else s).dropSp
  .next ((s1.afterReadWord s1.sp.toNat).jumpTo (s1.readWord s1.sp.toNat))

/-- `1nnn` (41_control.md R122). -/
def execJp (nnn : Addr12) (s : State) : Answer := .next (s.jumpTo (addrOperand nnn))

/-- `2nnn` (41_control.md R123): push the advanced `PC`, jump. -/
def execCall (nnn : Addr12) (s : State) : Answer := .next ((s.push s.pc).jumpTo (addrOperand nnn))

/-- `Bnnn` (41_control.md R124): `pc <- nnn + V[0]`, not masked to 12 bits. -/
def execJpV0 (nnn : Addr12) (s : State) : Answer :=
  .next (s.jumpTo (addrOperand nnn + byteToWord (s.readV Reg.v0)))

end Sys2Proof.Machine
end

