-- ==== Sys2Proof/Machine/Display.lean ====
section
/-! DEFINITION. Display instructions and the collision detector (45_display.md R170 to R179). -/

namespace Sys2Proof.Machine

/-- Zero `n` bytes upward from `a`, one byte write after another (R170). -/
def State.zeroBytes : Nat → Nat → State → State
  | 0, _, s => s
  | n + 1, a, s => State.zeroBytes n (a + 1) (s.memWrite a 0)

/-- `00E0` (R170): zero the framebuffer, mark it changed. -/
def execCls (s : State) : Answer :=
  .next (State.zeroBytes Config.displayBytes Config.displayStart s).markChanged

/-- What a draw carries from byte to byte: whether a lit pixel was turned off so far, and the machine. -/
abbrev Blit := Bool × State

/-- One destination byte of a draw: below 4096 it is read, tested for a collision and XORed; from 4096 on it is
neither read nor written (R171, R174, R175). -/
def Blit.xorByte (c : Blit) (a : Nat) (part : Byte) : Blit :=
  if a < Config.memSize then
    (c.1 || collides (c.2.byteAt a) part, c.2.memWrite a (c.2.byteAt a ^^^ part))
  else c

/-- Is a row's right part drawn: not when the row is byte-aligned, and not over the right edge under the `clip`
reading of `DRW_RIGHT_EDGE` (R171, R173; log 10). -/
def hasRightPart (x0 : Nat) : Bool :=
  bitOffset x0 != 0 && !(Params.drwClipsRightEdge && byteColumn x0 == 7)

/-- Sprite row `r`: read the row's byte at `base + r`, then XOR its left part and, where there is one, its right part
(R171, R173, R176). -/
def Blit.drawRow (x0 y0 base : Nat) (c : Blit) (r : Nat) : Blit :=
  let b := c.2.readByte (base + r)
  let c1 : Blit := (c.1, c.2.afterRead (base + r))
  let c2 := c1.xorByte (spriteTarget x0 y0 r) (leftPart b (bitOffset x0))
  if hasRightPart x0 then c2.xorByte (spriteTarget x0 y0 r + 1) (rightPart b (bitOffset x0)) else c2

/-- Rows 0 to `n - 1`, ascending; none when `n` is 0 (R171, R176). -/
def Blit.drawRows (x0 y0 base n : Nat) (c : Blit) : Blit := (List.range n).foldl (Blit.drawRow x0 y0 base) c

/-- The rows of a draw: the operands are read before anything is written (R171, R172). -/
def State.blit (s : State) (x y : Reg) (n : Nibble) : Blit :=
  Blit.drawRows (originX (s.readV x)) (originY (s.readV y)) s.i.toNat n.toNat (false, s)

/-- `Dxyn` (R171): draw the rows, then `VF <- coll` and `changed <- 1`. -/
def execDrw (x y : Reg) (n : Nibble) (s : State) : Answer :=
  .next ((s.blit x y n).2.setCollision (s.blit x y n).1).markChanged

end Sys2Proof.Machine
end

