-- ==== Sys2Proof/Machine/IndexRandom.lean ====
section
/-! DEFINITION. Index register and random number instructions (44_index_random.md R160 to R165). -/

namespace Sys2Proof.Machine

/-- The three decimal digits of a byte packed into the low 12 bits of a word (44_index_random.md R164). -/
def packedDigits (b : Byte) : Word :=
  let h := b.toNat / 100
  let t := b.toNat / 10 % 10
  let o := b.toNat % 10
  (BitVec.ofNat 16 h <<< 8) ||| (BitVec.ofNat 16 t <<< 4) ||| BitVec.ofNat 16 o

/-- `Annn` (R160). -/
def execLdI (nnn : Addr12) (s : State) : Answer := .next (s.writeI (addrOperand nnn))

/-- `Cxkk` with the drawn byte as an argument (R161). -/
def State.writeMasked (s : State) (x : Reg) (r kk : Byte) : State := s.writeV x (r &&& kk)

/-- `Cxkk` (R161): one draw, ANDed with `kk`. -/
def execRnd (x : Reg) (kk : Byte) (s : State) : Answer := .next (s.afterRnd.writeMasked x s.rndByte kk)

/-- `Fx1E` (R162): modulo 65536, no flag. -/
def execAddI (x : Reg) (s : State) : Answer := .next (s.writeI (s.i + byteToWord (s.readV x)))

/-- `Fx29` (R163): `V[x]` whole, times 5. -/
def execLdF (x : Reg) (s : State) : Answer := .next (s.writeI (byteToWord (s.readV x) * 5))

/-- `Fx33` (R164): packed digits into `I`; memory is not touched. -/
def execLdB (x : Reg) (s : State) : Answer := .next (s.writeI (packedDigits (s.readV x)))

end Sys2Proof.Machine
end

