-- ==== Sys2Proof/Machine/Keypad.lean ====
section
/-! DEFINITION. Keypad instructions (46_keypad.md R180 to R185). -/

namespace Sys2Proof.Machine

/-- The condition of `Ex9E` on an answer: some key, and it equals the whole of `V[x]` (R180). -/
def keyEquals (k : Option Nibble) (b : Byte) : Bool :=
  match k with
  | some k => keyToByte k == b
  | none => false

/-- The condition of `ExA1` on an answer: some key, and it differs from the whole of `V[x]` (R181). -/
def keyDiffers (k : Option Nibble) (b : Byte) : Bool :=
  match k with
  | some k => keyToByte k != b
  | none => false

/-- `Ex9E` (R180): one query. -/
def execSkp (x : Reg) (s : State) : Answer := .next (s.afterKey.skipIf (keyEquals s.keySample (s.readV x)))

/-- `ExA1` (R181): one query; with no key pressed it does not skip. -/
def execSknp (x : Reg) (s : State) : Answer := .next (s.afterKey.skipIf (keyDiffers s.keySample (s.readV x)))

/-- `KeyWait()` on one sample of the key port: a key is written to `V[x]` and ends the wait, no key keeps the core
held with nothing changed (R182, 60_exceptions.md R222; log 5). -/
def State.awaitKey (s : State) (x : Reg) : State :=
  match s.keySample with
  | some k => { s.afterKey.writeV x (keyToByte k) with hold := none }
  | none => { s.afterKey with hold := some x }

/-- `Fx0A` (R182): the first sample; while it finds no key the run loop samples again (`runLoopStep`). -/
def execLdVxK (x : Reg) (s : State) : Answer := .next (s.awaitKey x)

end Sys2Proof.Machine
end

