-- ==== Sys2Proof/Machine/Reserved.lean ====
section
/-! DEFINITION. The reserved words: each executes as a no-operation that counts as an instruction (30_encoding.md
R88, 46_keypad.md R185). -/

namespace Sys2Proof.Machine

/-- `5xy1` to `5xyF` (R88). -/
def execRsv5 (_x _y : Reg) (_sub : Nibble) (s : State) : Answer := .next s

/-- `8xy8` to `8xyD`, `8xyF` (R88). -/
def execRsv8 (_x _y : Reg) (_sub : Nibble) (s : State) : Answer := .next s

/-- `9xy1` to `9xyF` (R88). -/
def execRsv9 (_x _y : Reg) (_sub : Nibble) (s : State) : Answer := .next s

/-- `Ex__` other than `Ex9E` and `ExA1`: no key query either (R88, R185). -/
def execRsvE (_x : Reg) (_sub : Byte) (s : State) : Answer := .next s

/-- `Fx__` other than the nine listed (R88, R185). -/
def execRsvF (_x : Reg) (_sub : Byte) (s : State) : Answer := .next s

end Sys2Proof.Machine
end

