-- ==== Sys2Proof/Machine/Skip.lean ====
section
/-! DEFINITION. The conditional skips (42_skip.md R130 to R134). -/

namespace Sys2Proof.Machine

/-- `3xkk` (R130). -/
def execSeImm (x : Reg) (kk : Byte) (s : State) : Answer := .next (s.skipIf (s.readV x == kk))

/-- `4xkk` (R131). -/
def execSneImm (x : Reg) (kk : Byte) (s : State) : Answer := .next (s.skipIf (s.readV x != kk))

/-- `5xy0` (R132). -/
def execSeReg (x y : Reg) (s : State) : Answer := .next (s.skipIf (s.readV x == s.readV y))

/-- `9xy0` (R133). -/
def execSneReg (x y : Reg) (s : State) : Answer := .next (s.skipIf (s.readV x != s.readV y))

end Sys2Proof.Machine
end

