-- ==== Sys2Proof/Machine/Timers.lean ====
section
/-! DEFINITION. Timer instructions (47_timers.md R190 to R193) and the timers' floored decrement (40_run_loop.md
R107, 10_state.md R31). -/

namespace Sys2Proof.Machine

/-- `max(value - 1, 0)` (40_run_loop.md R107). -/
def timerDown (b : Byte) : Byte := if b = 0 then 0 else b - 1

/-- `Fx07` (R190; log 13). -/
def execLdVxDt (x : Reg) (s : State) : Answer := .next (s.writeV x s.dt)

/-- `Fx15` (R191). -/
def execLdDtVx (x : Reg) (s : State) : Answer := .next { s with dt := s.readV x }

/-- `Fx18` (R192; log 13). -/
def execLdStVx (x : Reg) (s : State) : Answer := .next { s with st := s.readV x }

end Sys2Proof.Machine
end

