-- ==== Sys2Proof/Machine/RunLoop.lean ====
section
/-! DEFINITION. What the run loop does around an instruction (40_run_loop.md R100 to R111): fetch, halt test, advance,
count, tick, the hold of `Fx0A`, and the transition out of `Reset` (10_state.md R34, R36). -/

namespace Sys2Proof.Machine

/-- Every step starts with the output pulse of the step before it gone (60_exceptions.md R223; log 8). -/
def State.beginStep (s : State) : State := { s with redrawReq := false }

/-- The fetched opcode: `MemRead(PC, 2)` (40_run_loop.md R101). -/
def State.fetchWord (s : State) : Word := s.readWord s.pc.toNat

/-- The state after the fetch (R101). -/
def State.afterFetch (s : State) : State := s.afterReadWord s.pc.toNat

/-- `icount <- (icount + 1) mod 8` (R105). -/
def State.count (s : State) : State := { s with icount := s.icount + 1 }

/-- The tick: present the frame if it changed, then both timers down (R106, R107). -/
def State.tick (s : State) : State :=
  { s with redrawReq := s.changed, changed := false, dt := timerDown s.dt, st := timerDown s.st }

/-- Count the instruction, and tick if due (R105, R106). -/
def State.countAndTick (s : State) : State := if s.count.icount = 0 then s.count.tick else s.count

/-- The end of a step: an instruction that is held is not counted yet (R104, 46_keypad.md R182). -/
def State.finish (s : State) : State := if s.hold.isSome then s else s.countAndTick

/-- `Reset` applied and left for `Running` (10_state.md R34, R36, R37; 70_reset_and_hazards.md R240): every register
at its reset value, a wait cancelled, memory and the environment's answers as they were (log 7). -/
def State.applyReset (s : State) : State :=
  { State.reset with mem := s.mem, rnd := s.rnd, keys := s.keys, stray := s.stray }

/-- A step's answer from an instruction's: the run loop finishes the step. -/
def finishAnswer (o : Answer) : Answer :=
  match o with
  | .next t => .next t.finish
  | .fault f => .fault f
  | .refused r => .refused r

/-- The instruction half of a step: the sentinel halts with `PC` unadvanced and uncounted (R103), every other
instruction runs with `PC` advanced, is counted, and ticks if due (R102, R104, R105). -/
def runDecoded (exec : Instr → State → Answer) (i : Instr) (s : State) : Answer :=
  match i with
  | .halt => exec .halt s
  | i => finishAnswer (exec i s.advancePc)

/-- One step of the machine (R100), with the instructions' meanings as an argument. A held core samples the key port
again (log 5); `Reset` is applied and left (log 7); `Halted` makes no step (log 6). -/
def runLoopStep (exec : Instr → State → Answer) (s : State) : Answer :=
  match s.run with
  | .reset => .next s.applyReset
  | .halted => .fault .halted
  | .running =>
    match s.hold with
    | some x => .next (s.beginStep.awaitKey x).finish
    | none => runDecoded exec (decodeWord s.beginStep.fetchWord) s.beginStep.afterFetch

/-! ## Placing an instruction where the next step fetches it -/

/-- Put one byte where a read of `a` finds it: in memory below 4096, else as the next answers of the reads outside
memory, before `later` ones. -/
def State.placeByte (s : State) (a : Nat) (b : Byte) : State :=
  if a < Config.memSize then { s with mem := Memory.write s.mem a b }
  else { s with stray := { s.stray with given := b :: s.stray.given } }

/-- Put a word where the next step fetches, and let the next step fetch: running, not held (log 11). The low byte is
placed first, so that of two bytes outside memory the high one is answered first. -/
def State.placeWord (s : State) (w : Word) : State :=
  let t := (s.placeByte (s.pc.toNat + 1) (loByte w)).placeByte s.pc.toNat (hiByte w)
  { t with run := .running, hold := none }

end Sys2Proof.Machine
end

