-- ==== Sys2Proof/Machine/HostPort.lean ====
section
/-! DEFINITION. What the host can do to the machine and read from it (60_exceptions.md R221 to R226, 20_memory.md
R62): load memory, assert reset, lay down answers, read the frame and the status. The host acts only between steps;
it never writes memory while the core runs (log 12). -/

namespace Sys2Proof.Machine

/-- Port B write: one byte, only while the core is not `Running` and only to an address that exists (R62, R225). -/
def State.hostWrite (s : State) (a : Nat) (b : Byte) : Option State :=
  if s.run = .running ∨ Config.memSize ≤ a then none else some { s with mem := Memory.write s.mem a b }

/-- Load bytes upward from an address (20_memory.md R53, R225). -/
def State.loadImage : Nat → List Byte → State → Option State
  | _, [], s => some s
  | a, b :: bs, s =>
    match s.hostWrite a b with
    | some t => State.loadImage (a + 1) bs t
    | none => none

/-- Load a program at 0x200, its words big-endian (20_memory.md R53, R55; the sentinel is the builder's, R243). -/
def State.loadProgram (ws : List Word) (s : State) : Option State :=
  State.loadImage Config.progBase (ws.flatMap fun w => [hiByte w, loByte w]) s

/-- The host asserts reset, between two steps and in any state (70_reset_and_hazards.md R240): the machine is in
`Reset`, and its next step applies R36. -/
def State.assertReset (s : State) : State := { s with run := .reset }

/-- The host lays down an answer for a later sample of the key port (60_exceptions.md R221, R222; log 3). -/
def State.giveKey (s : State) (k : Option Nibble) : State :=
  { s with keys := { s.keys with given := s.keys.given ++ [k] } }

/-- The host lays down a random byte (60_exceptions.md R224; log 3). -/
def State.giveRnd (s : State) (b : Byte) : State :=
  { s with rnd := { s.rnd with given := s.rnd.given ++ [b] } }

/-- Port B read while the core is `Halted` (20_memory.md R62). -/
def State.hostRead (s : State) (a : Nat) : Option Byte :=
  if s.run = .halted ∧ a < Config.memSize then some (s.byteAt a) else none

/-- The 256 framebuffer bytes, 0xF00 first (60_exceptions.md R223, 20_memory.md R60). -/
def State.framebuffer (s : State) : List Byte :=
  (List.range Config.displayBytes).map fun k => s.byteAt (Config.displayStart + k)

/-- The frame presented by the last step, if it presented one (40_run_loop.md R106, 60_exceptions.md R223). -/
def State.presented (s : State) : Option (List Byte) := if s.redrawReq then some s.framebuffer else none

/-- Pixel (px, py), lit or not: bit `7 - (px mod 8)` of the byte at `0xF00 + py * 8 + (px >> 3)` (20_memory.md R60). -/
def State.pixel (s : State) (px py : Nat) : Bool :=
  (s.byteAt (Config.displayStart + py * 8 + px / 8)).getLsbD (7 - px % 8)

/-- Status output `halted` (60_exceptions.md R225). -/
def State.haltedOut (s : State) : Bool := s.run == .halted

/-- Status output `uflow` (60_exceptions.md R212, R225). -/
def State.uflowOut (s : State) : Bool := s.uflow

end Sys2Proof.Machine
end

