-- ==== Sys2Proof/Machine/Step.lean ====
section
/-! DEFINITION. The one step function: the run loop of Machine/RunLoop.lean over the meanings of Machine/Dispatch.lean
(40_run_loop.md R100), and the placing of an instruction for it. -/

namespace Sys2Proof.Machine

/-- One step (40_run_loop.md R100). -/
def step (s : State) : Host.Outcome State Fault Refusal := runLoopStep exec s

/-- `s` with one instruction, its bits numbered as spec/opcode_table.json numbers them, where the next step fetches it
(log 11, log 19). -/
def State.withFetchWord (s : State) (nbits w : Nat) : State := s.placeWord (BitVec.ofNat 16 (w % 2 ^ nbits))

end Sys2Proof.Machine
end

