-- ==== Sys2Proof/Safety.lean ====
section
/-! DEFINITION. The terms the claims use: what a step leaves alone, the machine's invariant, and the duties the spec
lays on a program, which the engine does not enforce (70_reset_and_hazards.md R246, R251). -/

namespace Sys2Proof

open Sys2Proof.Machine

/-- The parts of the state beside the general registers. -/
inductive Part where
  | pc | i | sp | dt | st | changed | icount | run | uflow | mem | hold | redrawReq | rnd | keys | stray
  deriving DecidableEq, Repr

/-- `t` is `s` but for the general registers and the parts named. All of memory is compared byte by byte. -/
def SameExcept (regs : List Reg) (parts : List Part) (s t : State) : Prop :=
  (∀ r, r ∉ regs → t.readV r = s.readV r) ∧
  (Part.pc ∉ parts → t.pc = s.pc) ∧
  (Part.i ∉ parts → t.i = s.i) ∧
  (Part.sp ∉ parts → t.sp = s.sp) ∧
  (Part.dt ∉ parts → t.dt = s.dt) ∧
  (Part.st ∉ parts → t.st = s.st) ∧
  (Part.changed ∉ parts → t.changed = s.changed) ∧
  (Part.icount ∉ parts → t.icount = s.icount) ∧
  (Part.run ∉ parts → t.run = s.run) ∧
  (Part.uflow ∉ parts → t.uflow = s.uflow) ∧
  (Part.mem ∉ parts → ∀ a, t.byteAt a = s.byteAt a) ∧
  (Part.hold ∉ parts → t.hold = s.hold) ∧
  (Part.redrawReq ∉ parts → t.redrawReq = s.redrawReq) ∧
  (Part.rnd ∉ parts → t.rnd = s.rnd) ∧
  (Part.keys ∉ parts → t.keys = s.keys) ∧
  (Part.stray ∉ parts → t.stray = s.stray)

/-- Every byte of memory outside `touched` reads as before. -/
def SameBytesOutside (touched : Nat → Prop) (s t : State) : Prop := ∀ a, ¬ touched a → t.byteAt a = s.byteAt a

/-- The invariant every step keeps: memory is in its canonical form, so that no address of 4096 or more holds a byte
(20_memory.md R58); only a running core is held (46_keypad.md R182, 70_reset_and_hazards.md R240); and the redraw
pulse stands only right after a tick that cleared `changed` (40_run_loop.md R106). -/
def Inv (s : State) : Prop :=
  s.mem.wf = true ∧ (s.hold ≠ none → s.run = .running) ∧
  (s.redrawReq = true → s.changed = false ∧ s.icount = 0 ∧ s.hold = none)

/-- The k-th answer from now of a kind of query, counted from 0: a given one, else the free value (log 3). -/
def nthAnswer {α : Type} (free : Nat → α) (d : Draws α) (k : Nat) : α := d.given.getD k (free (d.taken + k))

/-- The program's duty on the stack: between its base and the framebuffer (10_state.md R30, 70_reset_and_hazards.md
R246). -/
def StackInRoom (s : State) : Prop := 0xEA0 ≤ s.sp.toNat ∧ s.sp.toNat ≤ 0xF00

/-- The program's duty on `PC`: both bytes of the next opcode are in the memory (10_state.md R27, R251). -/
def PcInMemory (s : State) : Prop := s.pc.toNat + 1 < 4096

/-- The program's duty on a data access of `n` bytes through `I` (R251). -/
def DataInMemory (s : State) (n : Nat) : Prop := s.i.toNat + n ≤ 4096

/-- The core is about to fetch: it runs and no `Fx0A` holds it (40_run_loop.md R100, R104). -/
def AtFetch (s : State) : Prop := s.run = .running ∧ s.hold = none

/-- The address that row `r` of a sprite drawn by `V[x]`, `V[y]` has in the framebuffer: 0xF00 + (y0 + r) * 8 + col
(45_display.md R171). -/
def drawAddr (s : State) (x y : Reg) (r : Nat) : Nat :=
  0xF00 + ((s.readV y).toNat % 32 + r) * 8 + (s.readV x).toNat % 64 / 8

/-- The bit offset of a sprite drawn by `V[x]` (45_display.md R171, R173). -/
def drawShift (s : State) (x : Reg) : Nat := (s.readV x).toNat % 64 % 8

/-- The bytes of memory that rows 0 to `k - 1` of a sprite write: for each row its address, and the next one when the
sprite is not byte-aligned, each only below 4096 (45_display.md R171, R175). -/
def DrawTouches (s : State) (x y : Reg) (k : Nat) (a : Nat) : Prop :=
  a < 4096 ∧ ∃ r, r < k ∧ (a = drawAddr s x y r ∨ (drawShift s x ≠ 0 ∧ a = drawAddr s x y r + 1))

/-- The general registers an instruction names as what it writes, by the "written by" column of 10_state.md section 1;
the sprite draw's flag in `VF` is not among them. -/
def destinations : Instr → List Reg
  | .ldImm x _ | .addImm x _ | .rnd x _ => [x]
  | .ldReg x _ | .orReg x _ | .andReg x _ | .xorReg x _ | .addReg x _ | .subReg x _ | .shr x _ | .subn x _
  | .shl x _ => [x]
  | .ldVxDt x | .ldVxK x => [x]
  | .ldVxMem x => regsThrough x
  | .halt | .cls | .ret | .sys _ | .jp _ | .call _ | .seImm _ _ | .sneImm _ _ | .seReg _ _ | .sneReg _ _ | .ldI _
  | .jpV0 _ | .drw _ _ _ | .skp _ | .sknp _ | .ldDtVx _ | .ldStVx _ | .addI _ | .ldF _ | .ldB _ | .ldMemVx _
  | .rsv5 _ _ _ | .rsv8 _ _ _ | .rsv9 _ _ _ | .rsvE _ _ | .rsvF _ _ => []

end Sys2Proof
end

