-- ==== Sys2Proof/Certificates/Slice0/Obligations.lean ====
section
/-! DEFINITION. The statements for the provers. Each docstring names the rule of spec/ it is about; a statement that
rests on a decision of the spec's own (D<n>) or on a choice of the model (log <n>) says so. -/

open Sys2Proof Sys2Proof.Machine

/-! ## Encoding -/

/-- 30_encoding.md R81 to R84: no bit of an encoding is dropped. Every well-formed instruction's bytes decode to it,
whatever bytes follow. -/
def Obligations.EncodedInstructionDecodesBack : Prop :=
  ∀ (i : Instr) (rest : List Byte), i.wellFormed = true → decode (encode i ++ rest) = .ok (i, rest)

/-- 30_encoding.md R84, R90: every one of the 65536 words is exactly one well-formed instruction's. Which one rests in
families 5, 8 and 9 on the spec's decisions D10 and D21 (log 13, log 10). -/
def Obligations.EveryWordIsExactlyOneInstruction : Prop :=
  ∀ op : Word,
    (decodeWord op).wellFormed = true ∧ encodeWord (decodeWord op) = op ∧
    ∀ i : Instr, i.wellFormed = true → encodeWord i = op → i = decodeWord op

/-- 30_encoding.md R84 with the fields of R81 and the formats of R82: the decoder answers the row of the 41-row map
that matches first, with the operand fields that row's format reads out of the word. The map's `sub-opcode` numbers
of family 8 rest on the spec's decision D10 (log 13), the tested low nibble of families 5 and 9 on D21 (log 10). -/
def Obligations.DecoderFollowsTheOpcodeMap : Prop :=
  opcodeMap.length = 41 ∧
  ∀ op : Word, ∃ row, firstRow op = some row ∧ row.order = (decodeWord op).row ∧
    row.format.fields op = (decodeWord op).fields

/-- 30_encoding.md R94: the worked encodings, and the worked decodings. -/
def Obligations.WorkedEncodingsAreAsListed : Prop :=
  (encodeWord (.ldImm 3 0x2A) = 0x632A ∧ encode (.ldImm 3 0x2A) = [0x63, 0x2A]) ∧
  encodeWord (.addReg 0xA 0xB) = 0x8AB4 ∧
  encodeWord (.drw 1 2 5) = 0xD125 ∧
  encodeWord (.jp 0x204) = 0x1204 ∧
  encodeWord (.ldMemVx 1) = 0xF155 ∧
  encodeWord (.skp 0xC) = 0xEC9E ∧
  (famOf 0x8AB4 = 8 ∧ xOf 0x8AB4 = 0xA ∧ yOf 0x8AB4 = 0xB ∧ nOf 0x8AB4 = 4 ∧ decodeWord 0x8AB4 = .addReg 0xA 0xB ∧
    (decodeWord 0x8AB4).row = 16) ∧
  (famOf 0x5121 = 5 ∧ nOf 0x5121 = 1 ∧ decodeWord 0x5121 = .rsv5 1 2 1 ∧ (decodeWord 0x5121).row = 37 ∧
    ∀ s, exec (.rsv5 1 2 1) s = .next s) ∧
  (decodeWord 0x0000 = .halt ∧ (decodeWord 0x0000).row = 1) ∧
  (decodeWord 0x00E1 = .sys 0x0E1 ∧ (decodeWord 0x00E1).row = 4 ∧ ∀ s, exec (.sys 0x0E1) s = .next s)

/-- 30_encoding.md R87: only the word zero is the sentinel, and a step from a fetching core halts exactly when it
fetches that word. -/
def Obligations.OnlyTheZeroWordHalts : Prop :=
  (∀ op : Word, decodeWord op = .halt ↔ op = 0x0000) ∧
  ∀ s, AtFetch s → ((∃ t, step s = .next t ∧ t.run = .halted) ↔ s.fetchWord = 0x0000)

/-- 30_encoding.md R88, 41_control.md R120, 46_keypad.md R185: `SYS` and the five reserved rows complete from every
state and change nothing; a step that fetches such a word advances `PC` by 2, counts it, and changes no register,
no byte of memory, no `SP` and no diagnostic. That the non-zero low nibbles of families 5 and 9 are reserved at all
is the spec's decision D21 (log 10). -/
def Obligations.ReservedWordsChangeNothing : Prop :=
  (∀ nnn s, exec (.sys nnn) s = .next s) ∧
  (∀ x y sub s, exec (.rsv5 x y sub) s = .next s) ∧
  (∀ x y sub s, exec (.rsv8 x y sub) s = .next s) ∧
  (∀ x y sub s, exec (.rsv9 x y sub) s = .next s) ∧
  (∀ x sub s, exec (.rsvE x sub) s = .next s) ∧
  (∀ x sub s, exec (.rsvF x sub) s = .next s) ∧
  ∀ s, AtFetch s → PcInMemory s → (decodeWord s.fetchWord).row ∈ [4, 37, 38, 39, 40, 41] →
    ∃ t, step s = .next t ∧ t.pc = s.pc + 2 ∧ t.icount = s.icount + 1 ∧
      SameExcept [] [.pc, .icount, .dt, .st, .changed, .redrawReq] s t

/-! ## Control transfer -/

/-- 41_control.md R122: `1nnn` sets `PC` to `nnn` zero-extended and changes nothing else. -/
def Obligations.JumpSetsPcToTarget : Prop :=
  ∀ (nnn : Addr12) (s : State), decodeWord (0x1#4 ++ nnn) = .jp nnn ∧
    ∃ t, exec (.jp nnn) s = .next t ∧ t.pc.toNat = nnn.toNat ∧ SameExcept [] [.pc] s t

/-- 41_control.md R124 (D16: the sum is not masked): `Bnnn` sets `PC` to `nnn + V[0]`, up to 0x10FE. -/
def Obligations.JumpWithOffsetAddsV0 : Prop :=
  ∀ (nnn : Addr12) (s : State), decodeWord (0xB#4 ++ nnn) = .jpV0 nnn ∧
    ∃ t, exec (.jpV0 nnn) s = .next t ∧ t.pc.toNat = nnn.toNat + (s.readV 0).toNat ∧ SameExcept [] [.pc] s t

/-- 41_control.md R123 (D7: high byte at the lower address, log 15; D5: a byte from 4096 on is dropped, log 20):
`2nnn` stores the high byte of `PC` at `SP` and the low byte at `SP + 1`, adds 2 to `SP`, jumps, and marks the
framebuffer changed exactly when a stored byte lies there. That last clause is a choice: that a push sets `changed`
is 10_state.md R32 by the spec's decision D18, the default of the parameter CHANGED_ON_ANY_FB_WRITE (log 10,
unsafe). -/
def Obligations.CallPushesReturnAddress : Prop :=
  ∀ (nnn : Addr12) (s : State), decodeWord (0x2#4 ++ nnn) = .call nnn ∧
    ∃ t, exec (.call nnn) s = .next t ∧ t.pc.toNat = nnn.toNat ∧ t.sp = s.sp + 2 ∧
      (s.sp.toNat < 4096 → (t.byteAt s.sp.toNat).toNat = s.pc.toNat / 256) ∧
      (s.sp.toNat + 1 < 4096 → (t.byteAt (s.sp.toNat + 1)).toNat = s.pc.toNat % 256) ∧
      SameBytesOutside (fun a => a < 4096 ∧ (a = s.sp.toNat ∨ a = s.sp.toNat + 1)) s t ∧
      (t.changed = true ↔ s.changed = true ∨ (0xF00 ≤ s.sp.toNat ∧ s.sp.toNat < 4096) ∨
        (0xF00 ≤ s.sp.toNat + 1 ∧ s.sp.toNat + 1 < 4096)) ∧
      SameExcept [] [.pc, .sp, .mem, .changed] s t

/-- 41_control.md R121 (D7, D8): `00EE` subtracts 2 from `SP` whatever it is, sets `uflow` when the integer
`SP - 2` is below 0xEA0, and loads `PC` from the two bytes at the new `SP`, high byte first; a byte from 4096 on is
the next answer of the reads outside memory (D4, log 4). -/
def Obligations.ReturnPopsProgramCounter : Prop :=
  decodeWord 0x00EE = .ret ∧
  ∀ s : State, ∃ t, exec .ret s = .next t ∧ t.sp = s.sp - 2 ∧
    (t.uflow = true ↔ s.uflow = true ∨ s.sp.toNat < 0xEA2) ∧
    ((s.sp - 2).toNat < 4096 → hiByte t.pc = s.byteAt (s.sp - 2).toNat) ∧
    ((s.sp - 2).toNat + 1 < 4096 → loByte t.pc = s.byteAt ((s.sp - 2).toNat + 1) ∧ t.stray = s.stray) ∧
    ((s.sp - 2).toNat = 4095 → loByte t.pc = nthAnswer Config.strayByte s.stray 0) ∧
    (4096 ≤ (s.sp - 2).toNat → hiByte t.pc = nthAnswer Config.strayByte s.stray 0 ∧
      loByte t.pc = nthAnswer Config.strayByte s.stray 1) ∧
    SameExcept [] [.pc, .sp, .uflow, .stray] s t

/-- 41_control.md R121 and R123 together, the source's own property: a call whose two bytes lie in memory, followed
by a return, gives back the `PC` and `SP` from before the call; where `SP` was not below its base it reports nothing.
The return may run at any `PC`. -/
def Obligations.ReturnAfterCallRestoresPcAndSp : Prop :=
  ∀ (nnn : Addr12) (s t : State) (p : Word), s.sp.toNat + 1 < 4096 → exec (.call nnn) s = .next t →
    ∃ u, exec .ret { t with pc := p } = .next u ∧ u.pc = s.pc ∧ u.sp = s.sp ∧
      (0xEA0 ≤ s.sp.toNat → u.uflow = s.uflow)

/-- 10_state.md R30, 70_reset_and_hazards.md R246: a program that keeps its nesting to 48 calls never writes the
framebuffer by a call. A call with `SP` at most 0xEFE leaves every framebuffer byte and `changed` as they were. -/
def Obligations.CallInRoomLeavesFramebufferAlone : Prop :=
  ∀ (nnn : Addr12) (s : State), StackInRoom s → s.sp.toNat ≤ 0xEFE →
    ∃ t, exec (.call nnn) s = .next t ∧ StackInRoom t ∧ t.changed = s.changed ∧
      ∀ a, 0xF00 ≤ a → t.byteAt a = s.byteAt a

/-! ## Skips -/

/-- 42_skip.md R130, R131: `3xkk` skips when `V[x] = kk` and `4xkk` when it differs; a skip adds 2 to `PC` and nothing
else changes. -/
def Obligations.ImmediateSkipsTestVx : Prop :=
  ∀ (x : Reg) (kk : Byte) (s : State),
    decodeWord ((0x3#4 ++ regBits x) ++ kk) = .seImm x kk ∧ decodeWord ((0x4#4 ++ regBits x) ++ kk) = .sneImm x kk ∧
    (∃ t, exec (.seImm x kk) s = .next t ∧ t.pc = (if s.readV x = kk then s.pc + 2 else s.pc) ∧
      SameExcept [] [.pc] s t) ∧
    (∃ t, exec (.sneImm x kk) s = .next t ∧ t.pc = (if s.readV x = kk then s.pc else s.pc + 2) ∧
      SameExcept [] [.pc] s t)

/-- 42_skip.md R132, R133 (D21: the low nibble is tested, log 10): `5xy0` skips when `V[x] = V[y]`, always when `x
= y`; `9xy0` when they differ, never when `x = y`. -/
def Obligations.RegisterSkipsCompareVxVy : Prop :=
  ∀ (x y : Reg) (s : State),
    (∃ t, exec (.seReg x y) s = .next t ∧ t.pc = (if s.readV x = s.readV y then s.pc + 2 else s.pc) ∧
      (x = y → t.pc = s.pc + 2) ∧ SameExcept [] [.pc] s t) ∧
    (∃ t, exec (.sneReg x y) s = .next t ∧ t.pc = (if s.readV x = s.readV y then s.pc else s.pc + 2) ∧
      (x = y → t.pc = s.pc) ∧ SameExcept [] [.pc] s t)

/-! ## Load, add, ALU -/

/-- 43_alu.md R140: `6xkk` loads `kk` into `V[x]`, into `VF` too when `x` is 15. -/
def Obligations.LoadImmediateWritesVx : Prop :=
  ∀ (x : Reg) (kk : Byte) (s : State), decodeWord ((0x6#4 ++ regBits x) ++ kk) = .ldImm x kk ∧
    ∃ t, exec (.ldImm x kk) s = .next t ∧ t.readV x = kk ∧ SameExcept [x] [] s t

/-- 43_alu.md R141: `7xkk` adds `kk` to `V[x]` modulo 256 and sets no flag: `VF` changes only as the destination. -/
def Obligations.AddImmediateWrapsAndSetsNoFlag : Prop :=
  ∀ (x : Reg) (kk : Byte) (s : State), decodeWord ((0x7#4 ++ regBits x) ++ kk) = .addImm x kk ∧
    ∃ t, exec (.addImm x kk) s = .next t ∧ (t.readV x).toNat = ((s.readV x).toNat + kk.toNat) % 256 ∧
      (x ≠ 15 → t.readV 15 = s.readV 15) ∧ SameExcept [x] [] s t

/-- 43_alu.md R142 to R145, R152 (sub-opcodes 0 to 3 are inferred by the spec, R85): assign, OR, AND and XOR, bit by
bit, of the values `V[x]` and `V[y]` had, written to `V[x]` alone. -/
def Obligations.MoveAndLogicActBitwise : Prop :=
  ∀ (x y : Reg) (s : State),
    (∃ t, exec (.ldReg x y) s = .next t ∧ t.readV x = s.readV y ∧ SameExcept [x] [] s t) ∧
    (∃ t, exec (.orReg x y) s = .next t ∧ SameExcept [x] [] s t ∧
      ∀ k, (t.readV x).getLsbD k = ((s.readV x).getLsbD k || (s.readV y).getLsbD k)) ∧
    (∃ t, exec (.andReg x y) s = .next t ∧ SameExcept [x] [] s t ∧
      ∀ k, (t.readV x).getLsbD k = ((s.readV x).getLsbD k && (s.readV y).getLsbD k)) ∧
    (∃ t, exec (.xorReg x y) s = .next t ∧ SameExcept [x] [] s t ∧
      ∀ k, (t.readV x).getLsbD k = ((s.readV x).getLsbD k ^^ (s.readV y).getLsbD k))

/-- 43_alu.md R146, R147: `8xy4` and `8xy5` add and subtract modulo 256 and leave `VF` untouched but as the
destination; no carry or borrow is recorded. -/
def Obligations.AddAndSubtractWrapAndLeaveVF : Prop :=
  ∀ (x y : Reg) (s : State),
    decodeWord ((0x8#4 ++ regBits x) ++ (regBits y ++ 0x4#4)) = .addReg x y ∧
    decodeWord ((0x8#4 ++ regBits x) ++ (regBits y ++ 0x5#4)) = .subReg x y ∧
    (∃ t, exec (.addReg x y) s = .next t ∧ (t.readV x).toNat = ((s.readV x).toNat + (s.readV y).toNat) % 256 ∧
      (x ≠ 15 → t.readV 15 = s.readV 15) ∧ SameExcept [x] [] s t) ∧
    (∃ t, exec (.subReg x y) s = .next t ∧
      (t.readV x).toNat = (if (s.readV y).toNat ≤ (s.readV x).toNat then (s.readV x).toNat - (s.readV y).toNat
        else (s.readV x).toNat + 256 - (s.readV y).toNat) ∧
      (x ≠ 15 → t.readV 15 = s.readV 15) ∧ SameExcept [x] [] s t)

/-- 43_alu.md R148, R149, R150 (sub-opcodes D10; one place, on `V[x]`, `y` ignored D9): the shifts and the reverse
subtract, with `VF` untouched but as the destination. -/
def Obligations.ShiftsAndReverseSubtractLeaveVF : Prop :=
  ∀ (x y : Reg) (s : State),
    (∃ t, exec (.shr x y) s = .next t ∧ (t.readV x).toNat = (s.readV x).toNat / 2 ∧ SameExcept [x] [] s t) ∧
    (∃ t, exec (.shl x y) s = .next t ∧ (t.readV x).toNat = (s.readV x).toNat * 2 % 256 ∧ SameExcept [x] [] s t) ∧
    (∃ t, exec (.subn x y) s = .next t ∧
      (t.readV x).toNat = (if (s.readV x).toNat ≤ (s.readV y).toNat then (s.readV y).toNat - (s.readV x).toNat
        else (s.readV y).toNat + 256 - (s.readV x).toNat) ∧ SameExcept [x] [] s t)

/-! ## Index register and random number -/

/-- 44_index_random.md R160: `Annn` loads `nnn`, zero-extended, into `I`. -/
def Obligations.LoadIndexWritesI : Prop :=
  ∀ (nnn : Addr12) (s : State), decodeWord (0xA#4 ++ nnn) = .ldI nnn ∧
    ∃ t, exec (.ldI nnn) s = .next t ∧ t.i.toNat = nnn.toNat ∧ SameExcept [] [.i] s t

/-- 44_index_random.md R162 (D13: modulo 65536, no flag), R163 (D14: no mask): `Fx1E` adds `V[x]` to `I`; `Fx29` sets
`I` to five times the whole of `V[x]`. -/
def Obligations.IndexArithmeticOnVx : Prop :=
  ∀ (x : Reg) (s : State),
    (∃ t, exec (.addI x) s = .next t ∧ t.i.toNat = (s.i.toNat + (s.readV x).toNat) % 65536 ∧
      SameExcept [] [.i] s t) ∧
    (∃ t, exec (.ldF x) s = .next t ∧ t.i.toNat = (s.readV x).toNat * 5 ∧ SameExcept [] [.i] s t)

/-- 44_index_random.md R164 (D12: into `I`, not into memory): `Fx33` packs the three decimal digits of `V[x]`, one a
nibble, into the low 12 bits of `I`. -/
def Obligations.PackedDigitsOfVxGoToI : Prop :=
  ∀ (x : Reg) (s : State), ∃ t h d o, exec (.ldB x) s = .next t ∧
    (s.readV x).toNat = 100 * h + 10 * d + o ∧ d < 10 ∧ o < 10 ∧ t.i.toNat = 256 * h + 16 * d + o ∧
    SameExcept [] [.i] s t

/-- 44_index_random.md R161 (D20: the byte is under no law): `Cxkk` takes exactly one random answer and writes it,
ANDed with `kk`; a bit of `V[x]` where `kk` has 0 is 0. The answer is a free value (log 3). -/
def Obligations.RandomByteIsMasked : Prop :=
  ∀ (x : Reg) (kk : Byte) (s : State), ∃ t, exec (.rnd x kk) s = .next t ∧
    t.readV x = nthAnswer Config.rndByte s.rnd 0 &&& kk ∧ (∀ k, kk.getLsbD k = false → (t.readV x).getLsbD k = false) ∧
    (∀ k, nthAnswer Config.rndByte t.rnd k = nthAnswer Config.rndByte s.rnd (k + 1)) ∧ SameExcept [x] [.rnd] s t

/-! ## Display -/

/-- 45_display.md R170: `00E0` zeroes 0xF00 to 0xFFF, so that the frame read from there is all zero, marks the
framebuffer changed, and changes nothing else. -/
def Obligations.ClearZeroesTheFramebuffer : Prop :=
  decodeWord 0x00E0 = .cls ∧
  ∀ s : State, ∃ t, exec .cls s = .next t ∧ t.changed = true ∧
    (∀ a, 0xF00 ≤ a → a < 0x1000 → t.byteAt a = 0) ∧ t.framebuffer = List.replicate 256 0 ∧
    SameBytesOutside (fun a => 0xF00 ≤ a ∧ a < 0x1000) s t ∧ SameExcept [] [.mem, .changed] s t

/-- 45_display.md R171, R173, R175 to R177 (D17; the right edge is the default of DRW_RIGHT_EDGE, log 10): what
`Dxyn` writes, for every state and every `n`. There is for each row the byte it read (from memory, as it is when
the row is drawn; from 4096 on the next answer of the reads outside memory, D4, log 4); the row's left part is
XORed into the byte at its address and, unless the sprite is byte-aligned, the right part into the next byte, each
only below 4096; no other byte changes, `I` does not, and `changed` is set. -/
def Obligations.DrawXorsEachRowIntoItsBytes : Prop :=
  ∀ (x y : Reg) (n : Nibble) (s : State), ∃ (t : State) (sprite : Nat → Byte), exec (.drw x y n) s = .next t ∧
    (∀ r, r < n.toNat → 4096 ≤ s.i.toNat + r →
      sprite r = nthAnswer Config.strayByte s.stray (s.i.toNat + r - max 4096 s.i.toNat)) ∧
    (∀ r, r < n.toNat → s.i.toNat + r < 4096 → ¬ DrawTouches s x y r (s.i.toNat + r) →
      sprite r = s.byteAt (s.i.toNat + r)) ∧
    (∀ r, r < n.toNat → s.i.toNat + r < 4096 → DrawTouches s x y r (s.i.toNat + r) →
      sprite r = t.byteAt (s.i.toNat + r)) ∧
    (∀ r, r < n.toNat → drawAddr s x y r < 4096 →
      t.byteAt (drawAddr s x y r) = s.byteAt (drawAddr s x y r) ^^^ (sprite r >>> drawShift s x)) ∧
    (∀ r, r < n.toNat → drawShift s x ≠ 0 → drawAddr s x y r + 1 < 4096 →
      t.byteAt (drawAddr s x y r + 1) =
        s.byteAt (drawAddr s x y r + 1) ^^^ (sprite r <<< (8 - drawShift s x))) ∧
    SameBytesOutside (DrawTouches s x y n.toNat) s t ∧ t.changed = true ∧
    (s.i.toNat + n.toNat ≤ 4096 → t.stray = s.stray) ∧
    SameExcept [15] [.mem, .changed, .stray] s t

/-- 45_display.md R174 (D17: the value for a collision is 1, log 14): after every `Dxyn`, `VF` is 1 if and only if
at least one bit of the framebuffer went from 1 to 0, and 0 otherwise. -/
def Obligations.CollisionFlagIffABitTurnsOff : Prop :=
  ∀ (x y : Reg) (n : Nibble) (s t : State), exec (.drw x y n) s = .next t →
    (t.readV 15 = 0 ∨ t.readV 15 = 1) ∧
    (t.readV 15 = 1 ↔ ∃ a k, 0xF00 ≤ a ∧ a < 0x1000 ∧ (s.byteAt a).getLsbD k = true ∧ (t.byteAt a).getLsbD k = false)

/-- 45_display.md R178: drawing the same sprite twice at the same coordinates restores memory exactly, every byte of
it, and sets `changed` both times, when the sprite's source lies in memory below the framebuffer (a source
inside the framebuffer that the draw does not touch is left out here). The second draw may
follow the first with `VF` as the first left it, so the coordinates are asked to be the same. -/
def Obligations.DrawingTwiceRestoresMemory : Prop :=
  ∀ (x y : Reg) (n : Nibble) (s t u : State), s.i.toNat + n.toNat ≤ 0xF00 →
    exec (.drw x y n) s = .next t → (t.readV x).toNat % 64 = (s.readV x).toNat % 64 →
    (t.readV y).toNat % 32 = (s.readV y).toNat % 32 → exec (.drw x y n) t = .next u →
    (∀ a, u.byteAt a = s.byteAt a) ∧ t.changed = true ∧ u.changed = true

/-- 45_display.md R172: only the origin wraps. Two states that differ in the coordinate registers alone, with `V[x]`
equal modulo 64 and `V[y]` equal modulo 32, get the same memory and the same `VF`. -/
def Obligations.DrawOriginWrapsModuloScreen : Prop :=
  ∀ (x y : Reg) (n : Nibble) (s s' t t' : State), s'.mem = s.mem → s'.i = s.i → s'.stray = s.stray →
    (s'.readV x).toNat % 64 = (s.readV x).toNat % 64 → (s'.readV y).toNat % 32 = (s.readV y).toNat % 32 →
    exec (.drw x y n) s = .next t → exec (.drw x y n) s' = .next t' →
    (∀ a, t'.byteAt a = t.byteAt a) ∧ t'.readV 15 = t.readV 15

/-- 20_memory.md R60 with 45_display.md R171, R173, R175 (D17: the right part spills to the next byte address, log
10): a draw seen as pixels. When the source lies in memory below the framebuffer, sprite pixel `k` of row `r` is
XORed into the pixel `k` places right of the origin's column in row `y0 + r`, and past the right edge into the left
end of the row below; every other pixel of the screen stays, so that what falls below the bottom draws nothing. -/
def Obligations.DrawTogglesSpritePixels : Prop :=
  ∀ (x y : Reg) (n : Nibble) (s t : State) (x0 y0 : Nat), s.i.toNat + n.toNat ≤ 0xF00 →
    exec (.drw x y n) s = .next t → x0 = (s.readV x).toNat % 64 → y0 = (s.readV y).toNat % 32 →
    (∀ r k, r < n.toNat → k < 8 →
      (x0 + k < 64 → y0 + r < 32 →
        t.pixel (x0 + k) (y0 + r) = (s.pixel (x0 + k) (y0 + r) ^^ (s.byteAt (s.i.toNat + r)).getLsbD (7 - k))) ∧
      (64 ≤ x0 + k → y0 + r + 1 < 32 →
        t.pixel (x0 + k - 64) (y0 + r + 1) =
          (s.pixel (x0 + k - 64) (y0 + r + 1) ^^ (s.byteAt (s.i.toNat + r)).getLsbD (7 - k)))) ∧
    ∀ px py, px < 64 → py < 32 →
      (∀ r k, r < n.toNat → k < 8 → ¬ (px = x0 + k ∧ py = y0 + r) ∧ ¬ (px + 64 = x0 + k ∧ py = y0 + r + 1)) →
      t.pixel px py = s.pixel px py

/-! ## Keypad -/

/-- 46_keypad.md R180, R181 (D19: the whole of `V[x]` is compared): both take one answer of the key port. `Ex9E` skips
when a key is pressed and equals `V[x]`, `ExA1` when a key is pressed and differs; with no key neither skips. The
answer is a free value (log 3). -/
def Obligations.KeySkipsQueryThePortOnce : Prop :=
  ∀ (x : Reg) (s : State),
    (∃ t, exec (.skp x) s = .next t ∧
      (∀ k, nthAnswer Config.keyPort s.keys 0 = some k →
        t.pc = (if k.toNat = (s.readV x).toNat then s.pc + 2 else s.pc)) ∧
      (nthAnswer Config.keyPort s.keys 0 = none → t.pc = s.pc) ∧
      (∀ k, nthAnswer Config.keyPort t.keys k = nthAnswer Config.keyPort s.keys (k + 1)) ∧
      SameExcept [] [.pc, .keys] s t) ∧
    (∃ t, exec (.sknp x) s = .next t ∧
      (∀ k, nthAnswer Config.keyPort s.keys 0 = some k →
        t.pc = (if k.toNat = (s.readV x).toNat then s.pc else s.pc + 2)) ∧
      (nthAnswer Config.keyPort s.keys 0 = none → t.pc = s.pc) ∧
      (∀ k, nthAnswer Config.keyPort t.keys k = nthAnswer Config.keyPort s.keys (k + 1)) ∧
      SameExcept [] [.pc, .keys] s t)

/-- 46_keypad.md R182: `Fx0A` completes at once when a key is pressed: `V[x]` receives it, zero-extended, and the core
is not held. -/
def Obligations.KeyWaitCompletesOnAKey : Prop :=
  ∀ (x : Reg) (k : Nibble) (s : State), s.hold = none → nthAnswer Config.keyPort s.keys 0 = some k →
    ∃ t, exec (.ldVxK x) s = .next t ∧ (t.readV x).toNat = k.toNat ∧ SameExcept [x] [.keys] s t

/-- 46_keypad.md R182, 40_run_loop.md R104, R108 (the hold as a state is log 5): with no key pressed `Fx0A` holds the
core and changes nothing else, and every later step that finds no key changes nothing either: no register, no byte of
memory, no `PC`, no count, no timer, no redraw. -/
def Obligations.KeyWaitHoldsTheCoreUnchanged : Prop :=
  (∀ (x : Reg) (s : State), nthAnswer Config.keyPort s.keys 0 = none →
    ∃ t, exec (.ldVxK x) s = .next t ∧ t.hold = some x ∧ SameExcept [] [.hold, .keys] s t) ∧
  ∀ (x : Reg) (s : State), s.run = .running → s.hold = some x → nthAnswer Config.keyPort s.keys 0 = none →
    ∃ t, step s = .next t ∧ t.redrawReq = false ∧ SameExcept [] [.keys, .redrawReq] s t

/-- 46_keypad.md R182, 60_exceptions.md R222 (the hold as a state is log 5, the pulse log 8): a held core that finds a
key writes it to the waiting register and is held no longer; the instruction counts as one, and a tick follows if due,
which presents the frame if it was changed and takes one from both timers. -/
def Obligations.KeyEndsTheHold : Prop :=
  ∀ (x : Reg) (k : Nibble) (s : State), s.run = .running → s.hold = some x →
    nthAnswer Config.keyPort s.keys 0 = some k →
    ∃ t, step s = .next t ∧ t.hold = none ∧ (t.readV x).toNat = k.toNat ∧ t.icount = s.icount + 1 ∧
      (t.icount = 0 → t.redrawReq = s.changed ∧ t.changed = false ∧ t.dt.toNat = s.dt.toNat - 1 ∧
        t.st.toNat = s.st.toNat - 1) ∧
      (t.icount ≠ 0 → t.redrawReq = false ∧ t.changed = s.changed ∧ t.dt = s.dt ∧ t.st = s.st) ∧
      SameExcept [x] [.keys, .hold, .icount, .dt, .st, .changed, .redrawReq] s t

/-! ## Timers -/

/-- 47_timers.md R191: `Fx15` loads `DT` with `V[x]`, any value. -/
def Obligations.DelayTimerIsLoadedFromVx : Prop :=
  ∀ (x : Reg) (s : State), decodeWord ((0xF#4 ++ regBits x) ++ 0x15#8) = .ldDtVx x ∧
    ∃ t, exec (.ldDtVx x) s = .next t ∧ t.dt = s.readV x ∧ SameExcept [] [.dt] s t

/-- 47_timers.md R190, R192 (the roles are the spec's decision D11): `Fx07` reads `DT` into `V[x]` and leaves it,
`Fx18` loads `ST`. -/
def Obligations.DelayTimerReadAndSoundTimerLoad : Prop :=
  ∀ (x : Reg) (s : State),
    (∃ t, exec (.ldVxDt x) s = .next t ∧ t.readV x = s.dt ∧ SameExcept [x] [] s t) ∧
    (∃ t, exec (.ldStVx x) s = .next t ∧ t.st = s.readV x ∧ SameExcept [] [.st] s t)

/-- 10_state.md R31, 40_run_loop.md R107: no step makes a timer wrap below 0. A running machine's step that does not
load a timer leaves it or takes 1 from it with a floor of 0, and takes 1 exactly at a tick. -/
def Obligations.TimersCountDownAndFloorAtZero : Prop :=
  ∀ s t : State, AtFetch s → step s = .next t → t.run = .running → t.hold = none →
    ((∀ x, decodeWord s.fetchWord ≠ .ldDtVx x) →
      t.dt.toNat = if s.icount = 7 then s.dt.toNat - 1 else s.dt.toNat) ∧
    ((∀ x, decodeWord s.fetchWord ≠ .ldStVx x) →
      t.st.toNat = if s.icount = 7 then s.st.toNat - 1 else s.st.toNat)

/-! ## Block store and load -/

/-- 48_block.md R200 (D5: bytes from 4096 on are dropped one by one, log 20; D15: `I` is kept, the default of
BLOCK_ADVANCES_I, log 10): `Fx55` stores `V[0]` to `V[x]` upward from `I`, and marks the framebuffer changed exactly
when a stored byte lies there. That last clause is a choice: that a block store sets `changed` is 10_state.md R32 by
the spec's decision D18, the default of the parameter CHANGED_ON_ANY_FB_WRITE (log 10, unsafe). -/
def Obligations.BlockStoreWritesRegisters : Prop :=
  ∀ (x : Reg) (s : State), ∃ t, exec (.ldMemVx x) s = .next t ∧
    (∀ r : Reg, r ≤ x → s.i.toNat + r.val < 4096 → t.byteAt (s.i.toNat + r.val) = s.readV r) ∧
    SameBytesOutside (fun a => a < 4096 ∧ s.i.toNat ≤ a ∧ a ≤ s.i.toNat + x.val) s t ∧
    (t.changed = true ↔ s.changed = true ∨
      ∃ r : Reg, r ≤ x ∧ 0xF00 ≤ s.i.toNat + r.val ∧ s.i.toNat + r.val < 4096) ∧
    SameExcept [] [.mem, .changed] s t

/-- 48_block.md R201 (D4: a byte from 4096 on is the next answer of the reads outside memory, log 4; D15: `I` is
kept, log 10): `Fx65` loads `V[0]` to `V[x]` from `I` upward; registers above `x` are untouched. -/
def Obligations.BlockLoadReadsRegisters : Prop :=
  ∀ (x : Reg) (s : State), ∃ t, exec (.ldVxMem x) s = .next t ∧
    (∀ r : Reg, r ≤ x → s.i.toNat + r.val < 4096 → t.readV r = s.byteAt (s.i.toNat + r.val)) ∧
    (∀ r : Reg, r ≤ x → 4096 ≤ s.i.toNat + r.val →
      t.readV r = nthAnswer Config.strayByte s.stray (s.i.toNat + r.val - max 4096 s.i.toNat)) ∧
    (∀ r : Reg, x < r → t.readV r = s.readV r) ∧
    (s.i.toNat + x.val < 4096 → t.stray = s.stray) ∧
    SameExcept (regsThrough x) [.stray] s t

/-- 48_block.md R203: a block store, then a block load with the same `x` and `I` and all addresses in memory, brings
back the stored registers, whatever the registers became in between. -/
def Obligations.BlockLoadAfterStoreRestoresRegisters : Prop :=
  ∀ (x : Reg) (s t t' u : State), DataInMemory s (x.val + 1) → exec (.ldMemVx x) s = .next t →
    t'.mem = t.mem → t'.i = s.i → exec (.ldVxMem x) t' = .next u → ∀ r : Reg, r ≤ x → u.readV r = s.readV r

/-- 20_memory.md R64 (D30), R55: instruction fetch sees a block store at once. If the two bytes at `PC` were just
stored, the opcode fetched next is the two stored registers, the lower-numbered one as the high byte. -/
def Obligations.FetchSeesABlockStoreAtOnce : Prop :=
  ∀ (x r : Reg) (s t : State), r < x → s.i.toNat + r.val + 1 < 4096 → exec (.ldMemVx x) s = .next t →
    t.pc.toNat = s.i.toNat + r.val → t.fetchWord = joinBytes (s.readV r) (s.readV (r + 1))

/-! ## Memory outside the 4096 bytes -/

/-- 20_memory.md R57 (D4), R58 (D5): a read at 4096 or above answers the next of the environment's bytes and changes
nothing else, two such reads in a row answer successive ones; a write there does nothing at all. -/
def Obligations.OutsideMemoryReadsAreDrawnAndWritesDropped : Prop :=
  ∀ (s : State) (a b : Nat) (w : Byte), 4096 ≤ a → 4096 ≤ b →
    s.readByte a = nthAnswer Config.strayByte s.stray 0 ∧
    (s.afterRead a).readByte b = nthAnswer Config.strayByte s.stray 1 ∧
    SameExcept [] [.stray] s (s.afterRead a) ∧ s.memWrite a w = s

/-! ## The run loop -/

/-- 40_run_loop.md R100 to R102, R104, R105: a step runs the decoded instruction. When the two bytes at `PC` lie in
memory and decode to `i`, and `i` is not the sentinel, the step is `exec i` with `PC` advanced by 2 and the redraw
pulse down (log 8), and then, unless `i` left the core held (log 5), the count and the tick. From 0xFFF up the fetched
bytes are `readWord`'s, and the step is the same of them. -/
def Obligations.StepRunsTheDecodedInstruction : Prop :=
  (∀ (s : State) (i : Instr), AtFetch s → PcInMemory s →
    decode [s.byteAt s.pc.toNat, s.byteAt (s.pc.toNat + 1)] = .ok (i, []) → i ≠ .halt →
    step s = (match exec i { s with pc := s.pc + 2, redrawReq := false } with
      | .next t => .next (if t.hold = none then t.countAndTick else t)
      | .fault f => .fault f
      | .refused r => .refused r)) ∧
  ∀ (s : State) (i : Instr), AtFetch s → decodeWord (s.readWord s.pc.toNat) = i → i ≠ .halt →
    step s = (match exec i { s.afterReadWord s.pc.toNat with pc := s.pc + 2, redrawReq := false } with
      | .next t => .next (if t.hold = none then t.countAndTick else t)
      | .fault f => .fault f
      | .refused r => .refused r)

/-- 40_run_loop.md R103 (D2: `PC` stays at the sentinel, log 10): executing the sentinel sets `run` to Halted and
nothing else; a step that fetches it ends there, not counted, with no tick and nothing presented. -/
def Obligations.HaltingFetchChangesOnlyRun : Prop :=
  (∀ s, ∃ t, exec .halt s = .next t ∧ t.run = .halted ∧ SameExcept [] [.run] s t) ∧
  ∀ s, AtFetch s → s.fetchWord = 0x0000 →
    ∃ t, step s = .next t ∧ t.run = .halted ∧ t.redrawReq = false ∧ (PcInMemory s → t.stray = s.stray) ∧
      SameExcept [] [.run, .redrawReq, .stray] s t

/-- 10_state.md R34: in Halted the core makes no step (the model answers its one fault, log 6), and no other state is
without a step. -/
def Obligations.OnlyAHaltedMachineMakesNoStep : Prop :=
  ∀ s, (s.run = .halted → step s = .fault .halted) ∧ (s.run ≠ .halted → ∃ t, step s = .next t)

/-- 40_run_loop.md R111: no instruction faults and none is refused: each one answers a next state from every state. -/
def Obligations.EveryInstructionAnswersANextState : Prop :=
  ∀ (i : Instr) (s : State), ∃ t, exec i s = .next t

/-- 10_state.md R36, R37 (D3, D8, D22), 70_reset_and_hazards.md R240: reset asserted in any state, held and halted
ones too, gives on the next step every register its reset value (`hold` is log 5, the step out of reset log 7) and
leaves all of memory; the state after reset holds the same values. -/
def Obligations.ResetGivesEveryRegisterItsValue : Prop :=
  ∀ s : State, ∃ t, step s.assertReset = .next t ∧
    ∀ u, u = t ∨ u = State.reset →
      (∀ r, u.readV r = 0) ∧ u.i = 0 ∧ u.pc = 0x200 ∧ u.sp = 0xEA0 ∧ u.dt = 0 ∧ u.st = 0 ∧ u.changed = true ∧
      u.icount = 0 ∧ u.uflow = false ∧ u.run = .running ∧ u.hold = none ∧
      (u = t → ∀ a, u.byteAt a = s.byteAt a)

/-- 10_state.md R21: reset gives every general register the value 0, so that a read before any write answers 0. -/
def Obligations.RegistersReadZeroAfterReset : Prop :=
  (∀ r, State.reset.readV r = 0) ∧ ∀ s t : State, step s.assertReset = .next t → ∀ r, t.readV r = 0

/-- 40_run_loop.md R106, R107: of a step that executes an instruction (it neither halts nor stays held), the count is
one up; when it becomes 0 the frame is presented exactly if the instruction left it changed, `changed` is cleared and
both timers go down by one with a floor of 0; otherwise nothing is presented and neither happens. `u` is the state the
instruction answered; that it is not held, and the pulse that a presented frame is read by, are log 5 and log 8. -/
def Obligations.EighthInstructionTicks : Prop :=
  ∀ s t u : State, AtFetch s → decodeWord s.fetchWord ≠ .halt →
    exec (decodeWord s.fetchWord) { s.afterFetch with pc := s.pc + 2, redrawReq := false } = .next u →
    u.hold = none → step s = .next t →
    t.icount = s.icount + 1 ∧
    (t.icount = 0 → t.presented = (if u.changed then some u.framebuffer else none) ∧ t.changed = false ∧
      t.dt.toNat = u.dt.toNat - 1 ∧ t.st.toNat = u.st.toNat - 1) ∧
    (t.icount ≠ 0 → t.presented = none ∧ t.changed = u.changed ∧ t.dt = u.dt ∧ t.st = u.st) ∧
    SameExcept [] [.icount, .redrawReq, .changed, .dt, .st] u t

/-- 45_display.md R170, 40_run_loop.md R106, 60_exceptions.md R223: a `00E0` that is the eighth instruction clears the
screen and presents the cleared frame in the same step (read through the pulse of log 8): 256 zero bytes, `changed`
cleared again. -/
def Obligations.ClearThenTickPresentsTheZeroFrame : Prop :=
  ∀ s : State, AtFetch s → s.fetchWord = 0x00E0 → s.icount = 7 →
    ∃ t, step s = .next t ∧ t.presented = some (List.replicate 256 0) ∧ t.changed = false ∧ t.icount = 0

/-- 20_memory.md R53, R62, 60_exceptions.md R225: the host loads bytes upward from any address while the core does not
run, and then they are there and nothing else has changed; while the core runs (log 12), or where a byte would have no
address, the load is not done. That a load into the framebuffer leaves `changed` alone is the model's choice, on which
the spec is silent (log 24, unsafe). -/
def Obligations.HostLoadsMemoryWhileNotRunning : Prop :=
  ∀ (a : Nat) (bs : List Byte) (s : State), bs ≠ [] →
    (s.run = .running ∨ 4096 < a + bs.length → State.loadImage a bs s = none) ∧
    (s.run ≠ .running → a + bs.length ≤ 4096 →
      ∃ t, State.loadImage a bs s = some t ∧ (∀ k b, bs[k]? = some b → t.byteAt (a + k) = b) ∧
        SameBytesOutside (fun m => a ≤ m ∧ m < a + bs.length) s t ∧ SameExcept [] [.mem] s t)

/-! ## Invariants and whole-machine rules -/

/-- The invariant `Inv` (memory canonical, no byte from 4096 on, only a running core held, the redraw pulse only
right after a tick) is kept by every step, from every state that has it (20_memory.md R58, 40_run_loop.md R106,
46_keypad.md R182; the fields `hold` and `redrawReq` are log 5 and log 8). -/
def Obligations.EveryStepKeepsTheInvariant : Prop :=
  ∀ s t : State, Inv s → step s = .next t → Inv t

/-- The state after reset has the invariant. It has it by values the model chose: no redraw pulse (log 8, unsafe), no
held `Fx0A` (log 5; 70_reset_and_hazards.md R240 has a reset cancel the wait) and a memory that lists no byte (log 1),
in the canonical form in which no byte stands at 4096 or above (20_memory.md R58). -/
def Obligations.ResetStateHasTheInvariant : Prop := Inv State.reset

/-- 10_state.md R23, R24, 43_alu.md R151, 44_index_random.md R165: an instruction changes no general register but the
ones it names as its destinations, with one exception: the sprite draw writes `VF` as a flag. -/
def Obligations.OnlyTheDrawWritesVFAsAFlag : Prop :=
  ∀ (i : Instr) (s t : State) (r : Reg), exec i s = .next t → t.readV r ≠ s.readV r →
    r ∈ destinations i ∨ (r = 15 ∧ ∃ x y n, i = .drw x y n)

/-- 20_memory.md R51: the instructions that write memory are `2nnn`, `Dxyn`, `00E0` and `Fx55`; no other changes any
byte, and none changes a byte from 4096 on (R58; D5, log 20). -/
def Obligations.OnlyFourInstructionsWriteMemory : Prop :=
  ∀ (i : Instr) (s t : State) (a : Nat), exec i s = .next t → t.byteAt a ≠ s.byteAt a →
    a < 4096 ∧ (i = .cls ∨ (∃ nnn, i = .call nnn) ∨ (∃ x y n, i = .drw x y n) ∨ ∃ x, i = .ldMemVx x)

/-- 10_state.md R28, R29 (D7, D15): `I` is written by `Annn`, `Fx1E`, `Fx29` and `Fx33` alone; `SP` by `2nnn`, which
adds 2, and `00EE`, which takes 2, alone. -/
def Obligations.IndexAndStackPointerHaveFewWriters : Prop :=
  ∀ (i : Instr) (s t : State), exec i s = .next t →
    (t.i ≠ s.i → (∃ nnn, i = .ldI nnn) ∨ ∃ x, i = .addI x ∨ i = .ldF x ∨ i = .ldB x) ∧
    (t.sp ≠ s.sp → ((∃ nnn, i = .call nnn) ∧ t.sp = s.sp + 2) ∨ (i = .ret ∧ t.sp = s.sp - 2))

/-- 10_state.md R26, 41_control.md R125: execution changes `PC` only by a jump, a call, a return or a taken skip, and
a skip adds exactly 2. -/
def Obligations.OnlyControlTransferMovesPc : Prop :=
  ∀ (i : Instr) (s t : State), exec i s = .next t → t.pc ≠ s.pc →
    (i = .ret ∨ ∃ nnn, i = .jp nnn ∨ i = .call nnn ∨ i = .jpV0 nnn) ∨
    (t.pc = s.pc + 2 ∧ ((∃ x kk, i = .seImm x kk ∨ i = .sneImm x kk) ∨ (∃ x y, i = .seReg x y ∨ i = .sneReg x y) ∨
      ∃ x, i = .skp x ∨ i = .sknp x))

/-- 10_state.md R35, 60_exceptions.md R212 (D8): `uflow` is sticky. No step of a running machine clears it, and a step
sets it only by fetching `00EE` with `SP` below 0xEA2. -/
def Obligations.UnderflowDiagnosticIsSticky : Prop :=
  ∀ s t : State, s.run = .running → step s = .next t →
    (s.uflow = true → t.uflow = true) ∧
    (s.uflow = false → t.uflow = true → s.hold = none ∧ s.fetchWord = 0x00EE ∧ s.sp.toNat < 0xEA2)

/-- 10_state.md R32: an instruction that alters any byte of the framebuffer leaves `changed` set, and no instruction
clears it. That a push and a block store set it, beside the clear and the draw, is a choice: the spec's decision D18
(90_conflicts.md C3), the default of the parameter CHANGED_ON_ANY_FB_WRITE (log 10, unsafe). -/
def Obligations.FramebufferWritesSetChanged : Prop :=
  ∀ (i : Instr) (s t : State), exec i s = .next t →
    ((∃ a, 0xF00 ≤ a ∧ t.byteAt a ≠ s.byteAt a) → t.changed = true) ∧ (s.changed = true → t.changed = true)

/-- 44_index_random.md R161, 46_keypad.md R182, R185: a random answer is taken by `Cxkk` and no other instruction, a
sample of the key port by `Ex9E`, `ExA1` and `Fx0A` and no other. -/
def Obligations.OnlyTheirInstructionsQueryTheHost : Prop :=
  ∀ (i : Instr) (s t : State), exec i s = .next t →
    (t.rnd ≠ s.rnd → ∃ x kk, i = .rnd x kk) ∧
    (t.keys ≠ s.keys → ∃ x, i = .skp x ∨ i = .sknp x ∨ i = .ldVxK x)
end

