-- ==== Sys2Proof/Laws/Encoding.lean ====
section
/-! SUPPORT. Words as numbers: what each field of an opcode is of a word put together from fields (30_encoding.md R81,
R82), and that a word is its bytes and its fields. -/

namespace Sys2Proof

/-- Concatenation as arithmetic: `a ++ b`, with `a` in the more significant position (00_scope.md R7). -/
theorem toNat_append_add {w v : Nat} (a : BitVec w) (b : BitVec v) : (a ++ b).toNat = a.toNat * 2 ^ v + b.toNat := by
  rw [BitVec.toNat_append, ← Nat.shiftLeft_add_eq_or_of_lt b.isLt, Nat.shiftLeft_eq]

/-! ## Bytes of a word -/

theorem toNat_joinBytes (hi lo : Byte) : (joinBytes hi lo).toNat = hi.toNat * 256 + lo.toNat :=
  toNat_append_add hi lo

theorem toNat_hiByte (w : Word) : (hiByte w).toNat = w.toNat / 256 := by
  have h := w.isLt
  simp only [hiByte, BitVec.extractLsb'_toNat, Nat.shiftRight_eq_div_pow]
  omega

theorem toNat_loByte (w : Word) : (loByte w).toNat = w.toNat % 256 := by
  simp [loByte]

@[simp] theorem hiByte_joinBytes (hi lo : Byte) : hiByte (joinBytes hi lo) = hi := by
  apply BitVec.eq_of_toNat_eq
  have h1 := hi.isLt; have h2 := lo.isLt
  rw [toNat_hiByte, toNat_joinBytes]; omega

@[simp] theorem loByte_joinBytes (hi lo : Byte) : loByte (joinBytes hi lo) = lo := by
  apply BitVec.eq_of_toNat_eq
  have h2 := lo.isLt
  rw [toNat_loByte, toNat_joinBytes]; omega

@[simp] theorem joinBytes_hi_lo (w : Word) : joinBytes (hiByte w) (loByte w) = w := by
  apply BitVec.eq_of_toNat_eq
  rw [toNat_joinBytes, toNat_hiByte, toNat_loByte]; omega

/-! ## Fields as numbers -/

theorem toNat_famOf (op : Word) : (famOf op).toNat = op.toNat / 4096 := by
  have h := op.isLt
  simp only [famOf, BitVec.extractLsb'_toNat, Nat.shiftRight_eq_div_pow]; omega

theorem val_xOf (op : Word) : (xOf op).val = op.toNat / 256 % 16 := by
  simp [xOf, Nat.shiftRight_eq_div_pow]

theorem val_yOf (op : Word) : (yOf op).val = op.toNat / 16 % 16 := by
  simp [yOf, Nat.shiftRight_eq_div_pow]

theorem toNat_nOf (op : Word) : (nOf op).toNat = op.toNat % 16 := by
  simp [nOf]

theorem toNat_kkOf (op : Word) : (kkOf op).toNat = op.toNat % 256 := by
  simp [kkOf]

theorem toNat_nnnOf (op : Word) : (nnnOf op).toNat = op.toNat % 4096 := by
  simp [nnnOf]

/-! ## Words put together from fields -/

theorem toNat_formA (fam : Nibble) (nnn : Addr12) : (formA fam nnn).toNat = fam.toNat * 4096 + nnn.toNat :=
  toNat_append_add fam nnn

theorem toNat_regBits (x : Reg) : (regBits x).toNat = x.val := rfl

theorem toNat_formXK (fam : Nibble) (x : Reg) (kk : Byte) :
    (formXK fam x kk).toNat = fam.toNat * 4096 + x.val * 256 + kk.toNat := by
  rw [formXK, toNat_append_add, toNat_append_add, toNat_regBits]; omega

theorem toNat_formXYN (fam : Nibble) (x y : Reg) (n : Nibble) :
    (formXYN fam x y n).toNat = fam.toNat * 4096 + x.val * 256 + y.val * 16 + n.toNat := by
  rw [formXYN, toNat_append_add, toNat_append_add, toNat_append_add, toNat_regBits, toNat_regBits]; omega

/-! ## Every field read back -/

@[simp] theorem famOf_formA (fam : Nibble) (nnn : Addr12) : famOf (formA fam nnn) = fam := by
  apply BitVec.eq_of_toNat_eq
  have := nnn.isLt
  rw [toNat_famOf, toNat_formA]; omega

@[simp] theorem nnnOf_formA (fam : Nibble) (nnn : Addr12) : nnnOf (formA fam nnn) = nnn := by
  apply BitVec.eq_of_toNat_eq
  have := nnn.isLt
  rw [toNat_nnnOf, toNat_formA]; omega

@[simp] theorem famOf_formXK (fam : Nibble) (x : Reg) (kk : Byte) : famOf (formXK fam x kk) = fam := by
  apply BitVec.eq_of_toNat_eq
  have := x.isLt; have := kk.isLt
  rw [toNat_famOf, toNat_formXK]; omega

@[simp] theorem xOf_formXK (fam : Nibble) (x : Reg) (kk : Byte) : xOf (formXK fam x kk) = x := by
  apply Fin.ext
  have := x.isLt; have := kk.isLt
  rw [val_xOf, toNat_formXK]; omega

@[simp] theorem kkOf_formXK (fam : Nibble) (x : Reg) (kk : Byte) : kkOf (formXK fam x kk) = kk := by
  apply BitVec.eq_of_toNat_eq
  have := kk.isLt
  rw [toNat_kkOf, toNat_formXK]; omega

@[simp] theorem famOf_formXYN (fam : Nibble) (x y : Reg) (n : Nibble) : famOf (formXYN fam x y n) = fam := by
  apply BitVec.eq_of_toNat_eq
  have := x.isLt; have := y.isLt; have := n.isLt
  rw [toNat_famOf, toNat_formXYN]; omega

@[simp] theorem xOf_formXYN (fam : Nibble) (x y : Reg) (n : Nibble) : xOf (formXYN fam x y n) = x := by
  apply Fin.ext
  have := x.isLt; have := y.isLt; have := n.isLt
  rw [val_xOf, toNat_formXYN]; omega

@[simp] theorem yOf_formXYN (fam : Nibble) (x y : Reg) (n : Nibble) : yOf (formXYN fam x y n) = y := by
  apply Fin.ext
  have := y.isLt; have := n.isLt
  rw [val_yOf, toNat_formXYN]; omega

@[simp] theorem nOf_formXYN (fam : Nibble) (x y : Reg) (n : Nibble) : nOf (formXYN fam x y n) = n := by
  apply BitVec.eq_of_toNat_eq
  have := n.isLt
  rw [toNat_nOf, toNat_formXYN]; omega

/-! ## A word is its fields -/

theorem formA_fields (op : Word) : formA (famOf op) (nnnOf op) = op := by
  apply BitVec.eq_of_toNat_eq
  rw [toNat_formA, toNat_famOf, toNat_nnnOf]; omega

theorem formXK_fields (op : Word) : formXK (famOf op) (xOf op) (kkOf op) = op := by
  apply BitVec.eq_of_toNat_eq
  have := op.isLt
  rw [toNat_formXK, toNat_famOf, val_xOf, toNat_kkOf]; omega

theorem formXYN_fields (op : Word) : formXYN (famOf op) (xOf op) (yOf op) (nOf op) = op := by
  apply BitVec.eq_of_toNat_eq
  have := op.isLt
  rw [toNat_formXYN, toNat_famOf, val_xOf, val_yOf, toNat_nOf]; omega

/-! ## Decoding what was encoded -/

theorem decode_encode_append (i : Instr) (rest : List Byte) :
    decode (encode i ++ rest) = .ok (decodeWord (encodeWord i), rest) := by
  simp [encode, decode]

end Sys2Proof
end

