-- ==== Sys2Proof/Laws/State.lean ====
section
/-! SUPPORT. What each plain update of the state does to each field, true by definition, so that no later proof
unfolds a record update. -/

namespace Sys2Proof.Machine

/-! ## `writeV` -/

@[simp] theorem State.writeV_v (s : State) (x : Reg) (b : Byte) : (s.writeV x b).v = s.v.set x.val b x.isLt := rfl
@[simp] theorem State.writeV_i (s : State) (x : Reg) (b : Byte) : (s.writeV x b).i = s.i := rfl
@[simp] theorem State.writeV_pc (s : State) (x : Reg) (b : Byte) : (s.writeV x b).pc = s.pc := rfl
@[simp] theorem State.writeV_sp (s : State) (x : Reg) (b : Byte) : (s.writeV x b).sp = s.sp := rfl
@[simp] theorem State.writeV_dt (s : State) (x : Reg) (b : Byte) : (s.writeV x b).dt = s.dt := rfl
@[simp] theorem State.writeV_st (s : State) (x : Reg) (b : Byte) : (s.writeV x b).st = s.st := rfl
@[simp] theorem State.writeV_changed (s : State) (x : Reg) (b : Byte) : (s.writeV x b).changed = s.changed := rfl
@[simp] theorem State.writeV_icount (s : State) (x : Reg) (b : Byte) : (s.writeV x b).icount = s.icount := rfl
@[simp] theorem State.writeV_run (s : State) (x : Reg) (b : Byte) : (s.writeV x b).run = s.run := rfl
@[simp] theorem State.writeV_uflow (s : State) (x : Reg) (b : Byte) : (s.writeV x b).uflow = s.uflow := rfl
@[simp] theorem State.writeV_mem (s : State) (x : Reg) (b : Byte) : (s.writeV x b).mem = s.mem := rfl
@[simp] theorem State.writeV_hold (s : State) (x : Reg) (b : Byte) : (s.writeV x b).hold = s.hold := rfl
@[simp] theorem State.writeV_redrawReq (s : State) (x : Reg) (b : Byte) : (s.writeV x b).redrawReq = s.redrawReq := rfl
@[simp] theorem State.writeV_rnd (s : State) (x : Reg) (b : Byte) : (s.writeV x b).rnd = s.rnd := rfl
@[simp] theorem State.writeV_keys (s : State) (x : Reg) (b : Byte) : (s.writeV x b).keys = s.keys := rfl
@[simp] theorem State.writeV_stray (s : State) (x : Reg) (b : Byte) : (s.writeV x b).stray = s.stray := rfl
@[simp] theorem State.writeV_byteAt (s : State) (x : Reg) (b : Byte) (a : Nat) : (s.writeV x b).byteAt a = s.byteAt a := rfl

/-! ## `writeI` -/

@[simp] theorem State.writeI_v (s : State) (w : Word) : (s.writeI w).v = s.v := rfl
@[simp] theorem State.writeI_i (s : State) (w : Word) : (s.writeI w).i = w := rfl
@[simp] theorem State.writeI_pc (s : State) (w : Word) : (s.writeI w).pc = s.pc := rfl
@[simp] theorem State.writeI_sp (s : State) (w : Word) : (s.writeI w).sp = s.sp := rfl
@[simp] theorem State.writeI_dt (s : State) (w : Word) : (s.writeI w).dt = s.dt := rfl
@[simp] theorem State.writeI_st (s : State) (w : Word) : (s.writeI w).st = s.st := rfl
@[simp] theorem State.writeI_changed (s : State) (w : Word) : (s.writeI w).changed = s.changed := rfl
@[simp] theorem State.writeI_icount (s : State) (w : Word) : (s.writeI w).icount = s.icount := rfl
@[simp] theorem State.writeI_run (s : State) (w : Word) : (s.writeI w).run = s.run := rfl
@[simp] theorem State.writeI_uflow (s : State) (w : Word) : (s.writeI w).uflow = s.uflow := rfl
@[simp] theorem State.writeI_mem (s : State) (w : Word) : (s.writeI w).mem = s.mem := rfl
@[simp] theorem State.writeI_hold (s : State) (w : Word) : (s.writeI w).hold = s.hold := rfl
@[simp] theorem State.writeI_redrawReq (s : State) (w : Word) : (s.writeI w).redrawReq = s.redrawReq := rfl
@[simp] theorem State.writeI_rnd (s : State) (w : Word) : (s.writeI w).rnd = s.rnd := rfl
@[simp] theorem State.writeI_keys (s : State) (w : Word) : (s.writeI w).keys = s.keys := rfl
@[simp] theorem State.writeI_stray (s : State) (w : Word) : (s.writeI w).stray = s.stray := rfl
@[simp] theorem State.writeI_readV (s : State) (w : Word) (r : Reg) : (s.writeI w).readV r = s.readV r := rfl
@[simp] theorem State.writeI_byteAt (s : State) (w : Word) (a : Nat) : (s.writeI w).byteAt a = s.byteAt a := rfl

/-! ## `jumpTo` -/

@[simp] theorem State.jumpTo_v (s : State) (w : Word) : (s.jumpTo w).v = s.v := rfl
@[simp] theorem State.jumpTo_i (s : State) (w : Word) : (s.jumpTo w).i = s.i := rfl
@[simp] theorem State.jumpTo_pc (s : State) (w : Word) : (s.jumpTo w).pc = w := rfl
@[simp] theorem State.jumpTo_sp (s : State) (w : Word) : (s.jumpTo w).sp = s.sp := rfl
@[simp] theorem State.jumpTo_dt (s : State) (w : Word) : (s.jumpTo w).dt = s.dt := rfl
@[simp] theorem State.jumpTo_st (s : State) (w : Word) : (s.jumpTo w).st = s.st := rfl
@[simp] theorem State.jumpTo_changed (s : State) (w : Word) : (s.jumpTo w).changed = s.changed := rfl
@[simp] theorem State.jumpTo_icount (s : State) (w : Word) : (s.jumpTo w).icount = s.icount := rfl
@[simp] theorem State.jumpTo_run (s : State) (w : Word) : (s.jumpTo w).run = s.run := rfl
@[simp] theorem State.jumpTo_uflow (s : State) (w : Word) : (s.jumpTo w).uflow = s.uflow := rfl
@[simp] theorem State.jumpTo_mem (s : State) (w : Word) : (s.jumpTo w).mem = s.mem := rfl
@[simp] theorem State.jumpTo_hold (s : State) (w : Word) : (s.jumpTo w).hold = s.hold := rfl
@[simp] theorem State.jumpTo_redrawReq (s : State) (w : Word) : (s.jumpTo w).redrawReq = s.redrawReq := rfl
@[simp] theorem State.jumpTo_rnd (s : State) (w : Word) : (s.jumpTo w).rnd = s.rnd := rfl
@[simp] theorem State.jumpTo_keys (s : State) (w : Word) : (s.jumpTo w).keys = s.keys := rfl
@[simp] theorem State.jumpTo_stray (s : State) (w : Word) : (s.jumpTo w).stray = s.stray := rfl
@[simp] theorem State.jumpTo_readV (s : State) (w : Word) (r : Reg) : (s.jumpTo w).readV r = s.readV r := rfl
@[simp] theorem State.jumpTo_byteAt (s : State) (w : Word) (a : Nat) : (s.jumpTo w).byteAt a = s.byteAt a := rfl

/-! ## `advancePc` -/

@[simp] theorem State.advancePc_v (s : State) : (s.advancePc).v = s.v := rfl
@[simp] theorem State.advancePc_i (s : State) : (s.advancePc).i = s.i := rfl
@[simp] theorem State.advancePc_pc (s : State) : (s.advancePc).pc = s.pc + 2 := rfl
@[simp] theorem State.advancePc_sp (s : State) : (s.advancePc).sp = s.sp := rfl
@[simp] theorem State.advancePc_dt (s : State) : (s.advancePc).dt = s.dt := rfl
@[simp] theorem State.advancePc_st (s : State) : (s.advancePc).st = s.st := rfl
@[simp] theorem State.advancePc_changed (s : State) : (s.advancePc).changed = s.changed := rfl
@[simp] theorem State.advancePc_icount (s : State) : (s.advancePc).icount = s.icount := rfl
@[simp] theorem State.advancePc_run (s : State) : (s.advancePc).run = s.run := rfl
@[simp] theorem State.advancePc_uflow (s : State) : (s.advancePc).uflow = s.uflow := rfl
@[simp] theorem State.advancePc_mem (s : State) : (s.advancePc).mem = s.mem := rfl
@[simp] theorem State.advancePc_hold (s : State) : (s.advancePc).hold = s.hold := rfl
@[simp] theorem State.advancePc_redrawReq (s : State) : (s.advancePc).redrawReq = s.redrawReq := rfl
@[simp] theorem State.advancePc_rnd (s : State) : (s.advancePc).rnd = s.rnd := rfl
@[simp] theorem State.advancePc_keys (s : State) : (s.advancePc).keys = s.keys := rfl
@[simp] theorem State.advancePc_stray (s : State) : (s.advancePc).stray = s.stray := rfl
@[simp] theorem State.advancePc_readV (s : State) (r : Reg) : (s.advancePc).readV r = s.readV r := rfl
@[simp] theorem State.advancePc_byteAt (s : State) (a : Nat) : (s.advancePc).byteAt a = s.byteAt a := rfl

/-! ## `afterRnd` -/

@[simp] theorem State.afterRnd_v (s : State) : (s.afterRnd).v = s.v := rfl
@[simp] theorem State.afterRnd_i (s : State) : (s.afterRnd).i = s.i := rfl
@[simp] theorem State.afterRnd_pc (s : State) : (s.afterRnd).pc = s.pc := rfl
@[simp] theorem State.afterRnd_sp (s : State) : (s.afterRnd).sp = s.sp := rfl
@[simp] theorem State.afterRnd_dt (s : State) : (s.afterRnd).dt = s.dt := rfl
@[simp] theorem State.afterRnd_st (s : State) : (s.afterRnd).st = s.st := rfl
@[simp] theorem State.afterRnd_changed (s : State) : (s.afterRnd).changed = s.changed := rfl
@[simp] theorem State.afterRnd_icount (s : State) : (s.afterRnd).icount = s.icount := rfl
@[simp] theorem State.afterRnd_run (s : State) : (s.afterRnd).run = s.run := rfl
@[simp] theorem State.afterRnd_uflow (s : State) : (s.afterRnd).uflow = s.uflow := rfl
@[simp] theorem State.afterRnd_mem (s : State) : (s.afterRnd).mem = s.mem := rfl
@[simp] theorem State.afterRnd_hold (s : State) : (s.afterRnd).hold = s.hold := rfl
@[simp] theorem State.afterRnd_redrawReq (s : State) : (s.afterRnd).redrawReq = s.redrawReq := rfl
@[simp] theorem State.afterRnd_rnd (s : State) : (s.afterRnd).rnd = s.rnd.advance := rfl
@[simp] theorem State.afterRnd_keys (s : State) : (s.afterRnd).keys = s.keys := rfl
@[simp] theorem State.afterRnd_stray (s : State) : (s.afterRnd).stray = s.stray := rfl
@[simp] theorem State.afterRnd_readV (s : State) (r : Reg) : (s.afterRnd).readV r = s.readV r := rfl
@[simp] theorem State.afterRnd_byteAt (s : State) (a : Nat) : (s.afterRnd).byteAt a = s.byteAt a := rfl

/-! ## `afterKey` -/

@[simp] theorem State.afterKey_v (s : State) : (s.afterKey).v = s.v := rfl
@[simp] theorem State.afterKey_i (s : State) : (s.afterKey).i = s.i := rfl
@[simp] theorem State.afterKey_pc (s : State) : (s.afterKey).pc = s.pc := rfl
@[simp] theorem State.afterKey_sp (s : State) : (s.afterKey).sp = s.sp := rfl
@[simp] theorem State.afterKey_dt (s : State) : (s.afterKey).dt = s.dt := rfl
@[simp] theorem State.afterKey_st (s : State) : (s.afterKey).st = s.st := rfl
@[simp] theorem State.afterKey_changed (s : State) : (s.afterKey).changed = s.changed := rfl
@[simp] theorem State.afterKey_icount (s : State) : (s.afterKey).icount = s.icount := rfl
@[simp] theorem State.afterKey_run (s : State) : (s.afterKey).run = s.run := rfl
@[simp] theorem State.afterKey_uflow (s : State) : (s.afterKey).uflow = s.uflow := rfl
@[simp] theorem State.afterKey_mem (s : State) : (s.afterKey).mem = s.mem := rfl
@[simp] theorem State.afterKey_hold (s : State) : (s.afterKey).hold = s.hold := rfl
@[simp] theorem State.afterKey_redrawReq (s : State) : (s.afterKey).redrawReq = s.redrawReq := rfl
@[simp] theorem State.afterKey_rnd (s : State) : (s.afterKey).rnd = s.rnd := rfl
@[simp] theorem State.afterKey_keys (s : State) : (s.afterKey).keys = s.keys.advance := rfl
@[simp] theorem State.afterKey_stray (s : State) : (s.afterKey).stray = s.stray := rfl
@[simp] theorem State.afterKey_readV (s : State) (r : Reg) : (s.afterKey).readV r = s.readV r := rfl
@[simp] theorem State.afterKey_byteAt (s : State) (a : Nat) : (s.afterKey).byteAt a = s.byteAt a := rfl

/-! ## `reportUnderflow` -/

@[simp] theorem State.reportUnderflow_v (s : State) : (s.reportUnderflow).v = s.v := rfl
@[simp] theorem State.reportUnderflow_i (s : State) : (s.reportUnderflow).i = s.i := rfl
@[simp] theorem State.reportUnderflow_pc (s : State) : (s.reportUnderflow).pc = s.pc := rfl
@[simp] theorem State.reportUnderflow_sp (s : State) : (s.reportUnderflow).sp = s.sp := rfl
@[simp] theorem State.reportUnderflow_dt (s : State) : (s.reportUnderflow).dt = s.dt := rfl
@[simp] theorem State.reportUnderflow_st (s : State) : (s.reportUnderflow).st = s.st := rfl
@[simp] theorem State.reportUnderflow_changed (s : State) : (s.reportUnderflow).changed = s.changed := rfl
@[simp] theorem State.reportUnderflow_icount (s : State) : (s.reportUnderflow).icount = s.icount := rfl
@[simp] theorem State.reportUnderflow_run (s : State) : (s.reportUnderflow).run = s.run := rfl
@[simp] theorem State.reportUnderflow_uflow (s : State) : (s.reportUnderflow).uflow = true := rfl
@[simp] theorem State.reportUnderflow_mem (s : State) : (s.reportUnderflow).mem = s.mem := rfl
@[simp] theorem State.reportUnderflow_hold (s : State) : (s.reportUnderflow).hold = s.hold := rfl
@[simp] theorem State.reportUnderflow_redrawReq (s : State) : (s.reportUnderflow).redrawReq = s.redrawReq := rfl
@[simp] theorem State.reportUnderflow_rnd (s : State) : (s.reportUnderflow).rnd = s.rnd := rfl
@[simp] theorem State.reportUnderflow_keys (s : State) : (s.reportUnderflow).keys = s.keys := rfl
@[simp] theorem State.reportUnderflow_stray (s : State) : (s.reportUnderflow).stray = s.stray := rfl
@[simp] theorem State.reportUnderflow_readV (s : State) (r : Reg) : (s.reportUnderflow).readV r = s.readV r := rfl
@[simp] theorem State.reportUnderflow_byteAt (s : State) (a : Nat) : (s.reportUnderflow).byteAt a = s.byteAt a := rfl

/-! ## `dropSp` -/

@[simp] theorem State.dropSp_v (s : State) : (s.dropSp).v = s.v := rfl
@[simp] theorem State.dropSp_i (s : State) : (s.dropSp).i = s.i := rfl
@[simp] theorem State.dropSp_pc (s : State) : (s.dropSp).pc = s.pc := rfl
@[simp] theorem State.dropSp_sp (s : State) : (s.dropSp).sp = s.sp - 2 := rfl
@[simp] theorem State.dropSp_dt (s : State) : (s.dropSp).dt = s.dt := rfl
@[simp] theorem State.dropSp_st (s : State) : (s.dropSp).st = s.st := rfl
@[simp] theorem State.dropSp_changed (s : State) : (s.dropSp).changed = s.changed := rfl
@[simp] theorem State.dropSp_icount (s : State) : (s.dropSp).icount = s.icount := rfl
@[simp] theorem State.dropSp_run (s : State) : (s.dropSp).run = s.run := rfl
@[simp] theorem State.dropSp_uflow (s : State) : (s.dropSp).uflow = s.uflow := rfl
@[simp] theorem State.dropSp_mem (s : State) : (s.dropSp).mem = s.mem := rfl
@[simp] theorem State.dropSp_hold (s : State) : (s.dropSp).hold = s.hold := rfl
@[simp] theorem State.dropSp_redrawReq (s : State) : (s.dropSp).redrawReq = s.redrawReq := rfl
@[simp] theorem State.dropSp_rnd (s : State) : (s.dropSp).rnd = s.rnd := rfl
@[simp] theorem State.dropSp_keys (s : State) : (s.dropSp).keys = s.keys := rfl
@[simp] theorem State.dropSp_stray (s : State) : (s.dropSp).stray = s.stray := rfl
@[simp] theorem State.dropSp_readV (s : State) (r : Reg) : (s.dropSp).readV r = s.readV r := rfl
@[simp] theorem State.dropSp_byteAt (s : State) (a : Nat) : (s.dropSp).byteAt a = s.byteAt a := rfl

/-! ## `markChanged` -/

@[simp] theorem State.markChanged_v (s : State) : (s.markChanged).v = s.v := rfl
@[simp] theorem State.markChanged_i (s : State) : (s.markChanged).i = s.i := rfl
@[simp] theorem State.markChanged_pc (s : State) : (s.markChanged).pc = s.pc := rfl
@[simp] theorem State.markChanged_sp (s : State) : (s.markChanged).sp = s.sp := rfl
@[simp] theorem State.markChanged_dt (s : State) : (s.markChanged).dt = s.dt := rfl
@[simp] theorem State.markChanged_st (s : State) : (s.markChanged).st = s.st := rfl
@[simp] theorem State.markChanged_changed (s : State) : (s.markChanged).changed = true := rfl
@[simp] theorem State.markChanged_icount (s : State) : (s.markChanged).icount = s.icount := rfl
@[simp] theorem State.markChanged_run (s : State) : (s.markChanged).run = s.run := rfl
@[simp] theorem State.markChanged_uflow (s : State) : (s.markChanged).uflow = s.uflow := rfl
@[simp] theorem State.markChanged_mem (s : State) : (s.markChanged).mem = s.mem := rfl
@[simp] theorem State.markChanged_hold (s : State) : (s.markChanged).hold = s.hold := rfl
@[simp] theorem State.markChanged_redrawReq (s : State) : (s.markChanged).redrawReq = s.redrawReq := rfl
@[simp] theorem State.markChanged_rnd (s : State) : (s.markChanged).rnd = s.rnd := rfl
@[simp] theorem State.markChanged_keys (s : State) : (s.markChanged).keys = s.keys := rfl
@[simp] theorem State.markChanged_stray (s : State) : (s.markChanged).stray = s.stray := rfl
@[simp] theorem State.markChanged_readV (s : State) (r : Reg) : (s.markChanged).readV r = s.readV r := rfl
@[simp] theorem State.markChanged_byteAt (s : State) (a : Nat) : (s.markChanged).byteAt a = s.byteAt a := rfl

/-! ## `setCollision` -/

@[simp] theorem State.setCollision_v (s : State) (c : Bool) : (s.setCollision c).v = s.v.set 15 (collisionValue c) := rfl
@[simp] theorem State.setCollision_i (s : State) (c : Bool) : (s.setCollision c).i = s.i := rfl
@[simp] theorem State.setCollision_pc (s : State) (c : Bool) : (s.setCollision c).pc = s.pc := rfl
@[simp] theorem State.setCollision_sp (s : State) (c : Bool) : (s.setCollision c).sp = s.sp := rfl
@[simp] theorem State.setCollision_dt (s : State) (c : Bool) : (s.setCollision c).dt = s.dt := rfl
@[simp] theorem State.setCollision_st (s : State) (c : Bool) : (s.setCollision c).st = s.st := rfl
@[simp] theorem State.setCollision_changed (s : State) (c : Bool) : (s.setCollision c).changed = s.changed := rfl
@[simp] theorem State.setCollision_icount (s : State) (c : Bool) : (s.setCollision c).icount = s.icount := rfl
@[simp] theorem State.setCollision_run (s : State) (c : Bool) : (s.setCollision c).run = s.run := rfl
@[simp] theorem State.setCollision_uflow (s : State) (c : Bool) : (s.setCollision c).uflow = s.uflow := rfl
@[simp] theorem State.setCollision_mem (s : State) (c : Bool) : (s.setCollision c).mem = s.mem := rfl
@[simp] theorem State.setCollision_hold (s : State) (c : Bool) : (s.setCollision c).hold = s.hold := rfl
@[simp] theorem State.setCollision_redrawReq (s : State) (c : Bool) : (s.setCollision c).redrawReq = s.redrawReq := rfl
@[simp] theorem State.setCollision_rnd (s : State) (c : Bool) : (s.setCollision c).rnd = s.rnd := rfl
@[simp] theorem State.setCollision_keys (s : State) (c : Bool) : (s.setCollision c).keys = s.keys := rfl
@[simp] theorem State.setCollision_stray (s : State) (c : Bool) : (s.setCollision c).stray = s.stray := rfl
@[simp] theorem State.setCollision_byteAt (s : State) (c : Bool) (a : Nat) : (s.setCollision c).byteAt a = s.byteAt a := rfl

/-! ## `beginStep` -/

@[simp] theorem State.beginStep_v (s : State) : (s.beginStep).v = s.v := rfl
@[simp] theorem State.beginStep_i (s : State) : (s.beginStep).i = s.i := rfl
@[simp] theorem State.beginStep_pc (s : State) : (s.beginStep).pc = s.pc := rfl
@[simp] theorem State.beginStep_sp (s : State) : (s.beginStep).sp = s.sp := rfl
@[simp] theorem State.beginStep_dt (s : State) : (s.beginStep).dt = s.dt := rfl
@[simp] theorem State.beginStep_st (s : State) : (s.beginStep).st = s.st := rfl
@[simp] theorem State.beginStep_changed (s : State) : (s.beginStep).changed = s.changed := rfl
@[simp] theorem State.beginStep_icount (s : State) : (s.beginStep).icount = s.icount := rfl
@[simp] theorem State.beginStep_run (s : State) : (s.beginStep).run = s.run := rfl
@[simp] theorem State.beginStep_uflow (s : State) : (s.beginStep).uflow = s.uflow := rfl
@[simp] theorem State.beginStep_mem (s : State) : (s.beginStep).mem = s.mem := rfl
@[simp] theorem State.beginStep_hold (s : State) : (s.beginStep).hold = s.hold := rfl
@[simp] theorem State.beginStep_redrawReq (s : State) : (s.beginStep).redrawReq = false := rfl
@[simp] theorem State.beginStep_rnd (s : State) : (s.beginStep).rnd = s.rnd := rfl
@[simp] theorem State.beginStep_keys (s : State) : (s.beginStep).keys = s.keys := rfl
@[simp] theorem State.beginStep_stray (s : State) : (s.beginStep).stray = s.stray := rfl
@[simp] theorem State.beginStep_readV (s : State) (r : Reg) : (s.beginStep).readV r = s.readV r := rfl
@[simp] theorem State.beginStep_byteAt (s : State) (a : Nat) : (s.beginStep).byteAt a = s.byteAt a := rfl

/-! ## `count` -/

@[simp] theorem State.count_v (s : State) : (s.count).v = s.v := rfl
@[simp] theorem State.count_i (s : State) : (s.count).i = s.i := rfl
@[simp] theorem State.count_pc (s : State) : (s.count).pc = s.pc := rfl
@[simp] theorem State.count_sp (s : State) : (s.count).sp = s.sp := rfl
@[simp] theorem State.count_dt (s : State) : (s.count).dt = s.dt := rfl
@[simp] theorem State.count_st (s : State) : (s.count).st = s.st := rfl
@[simp] theorem State.count_changed (s : State) : (s.count).changed = s.changed := rfl
@[simp] theorem State.count_icount (s : State) : (s.count).icount = s.icount + 1 := rfl
@[simp] theorem State.count_run (s : State) : (s.count).run = s.run := rfl
@[simp] theorem State.count_uflow (s : State) : (s.count).uflow = s.uflow := rfl
@[simp] theorem State.count_mem (s : State) : (s.count).mem = s.mem := rfl
@[simp] theorem State.count_hold (s : State) : (s.count).hold = s.hold := rfl
@[simp] theorem State.count_redrawReq (s : State) : (s.count).redrawReq = s.redrawReq := rfl
@[simp] theorem State.count_rnd (s : State) : (s.count).rnd = s.rnd := rfl
@[simp] theorem State.count_keys (s : State) : (s.count).keys = s.keys := rfl
@[simp] theorem State.count_stray (s : State) : (s.count).stray = s.stray := rfl
@[simp] theorem State.count_readV (s : State) (r : Reg) : (s.count).readV r = s.readV r := rfl
@[simp] theorem State.count_byteAt (s : State) (a : Nat) : (s.count).byteAt a = s.byteAt a := rfl

/-! ## `tick` -/

@[simp] theorem State.tick_v (s : State) : (s.tick).v = s.v := rfl
@[simp] theorem State.tick_i (s : State) : (s.tick).i = s.i := rfl
@[simp] theorem State.tick_pc (s : State) : (s.tick).pc = s.pc := rfl
@[simp] theorem State.tick_sp (s : State) : (s.tick).sp = s.sp := rfl
@[simp] theorem State.tick_dt (s : State) : (s.tick).dt = timerDown s.dt := rfl
@[simp] theorem State.tick_st (s : State) : (s.tick).st = timerDown s.st := rfl
@[simp] theorem State.tick_changed (s : State) : (s.tick).changed = false := rfl
@[simp] theorem State.tick_icount (s : State) : (s.tick).icount = s.icount := rfl
@[simp] theorem State.tick_run (s : State) : (s.tick).run = s.run := rfl
@[simp] theorem State.tick_uflow (s : State) : (s.tick).uflow = s.uflow := rfl
@[simp] theorem State.tick_mem (s : State) : (s.tick).mem = s.mem := rfl
@[simp] theorem State.tick_hold (s : State) : (s.tick).hold = s.hold := rfl
@[simp] theorem State.tick_redrawReq (s : State) : (s.tick).redrawReq = s.changed := rfl
@[simp] theorem State.tick_rnd (s : State) : (s.tick).rnd = s.rnd := rfl
@[simp] theorem State.tick_keys (s : State) : (s.tick).keys = s.keys := rfl
@[simp] theorem State.tick_stray (s : State) : (s.tick).stray = s.stray := rfl
@[simp] theorem State.tick_readV (s : State) (r : Reg) : (s.tick).readV r = s.readV r := rfl
@[simp] theorem State.tick_byteAt (s : State) (a : Nat) : (s.tick).byteAt a = s.byteAt a := rfl

/-! ## `assertReset` -/

@[simp] theorem State.assertReset_v (s : State) : (s.assertReset).v = s.v := rfl
@[simp] theorem State.assertReset_i (s : State) : (s.assertReset).i = s.i := rfl
@[simp] theorem State.assertReset_pc (s : State) : (s.assertReset).pc = s.pc := rfl
@[simp] theorem State.assertReset_sp (s : State) : (s.assertReset).sp = s.sp := rfl
@[simp] theorem State.assertReset_dt (s : State) : (s.assertReset).dt = s.dt := rfl
@[simp] theorem State.assertReset_st (s : State) : (s.assertReset).st = s.st := rfl
@[simp] theorem State.assertReset_changed (s : State) : (s.assertReset).changed = s.changed := rfl
@[simp] theorem State.assertReset_icount (s : State) : (s.assertReset).icount = s.icount := rfl
@[simp] theorem State.assertReset_run (s : State) : (s.assertReset).run = .reset := rfl
@[simp] theorem State.assertReset_uflow (s : State) : (s.assertReset).uflow = s.uflow := rfl
@[simp] theorem State.assertReset_mem (s : State) : (s.assertReset).mem = s.mem := rfl
@[simp] theorem State.assertReset_hold (s : State) : (s.assertReset).hold = s.hold := rfl
@[simp] theorem State.assertReset_redrawReq (s : State) : (s.assertReset).redrawReq = s.redrawReq := rfl
@[simp] theorem State.assertReset_rnd (s : State) : (s.assertReset).rnd = s.rnd := rfl
@[simp] theorem State.assertReset_keys (s : State) : (s.assertReset).keys = s.keys := rfl
@[simp] theorem State.assertReset_stray (s : State) : (s.assertReset).stray = s.stray := rfl
@[simp] theorem State.assertReset_readV (s : State) (r : Reg) : (s.assertReset).readV r = s.readV r := rfl
@[simp] theorem State.assertReset_byteAt (s : State) (a : Nat) : (s.assertReset).byteAt a = s.byteAt a := rfl

/-! ## Registers read back -/

theorem State.readV_writeV (s : State) (x : Reg) (b : Byte) (r : Reg) :
    (s.writeV x b).readV r = if r = x then b else s.readV r := by
  simp [State.readV, State.writeV, Vector.get_eq_getElem, Vector.getElem_set, Fin.ext_iff, eq_comm]

@[simp] theorem State.readV_writeV_same (s : State) (x : Reg) (b : Byte) : (s.writeV x b).readV x = b := by
  simp [State.readV_writeV]

@[simp] theorem State.readV_writeV_other (s : State) {x r : Reg} (b : Byte) (h : r ≠ x) :
    (s.writeV x b).readV r = s.readV r := by
  simp [State.readV_writeV, h]

@[simp] theorem State.readV_setCollision_vf (s : State) (c : Bool) :
    (s.setCollision c).readV Reg.vf = collisionValue c := State.readV_writeV_same s Reg.vf _

@[simp] theorem State.readV_setCollision_other (s : State) {r : Reg} (c : Bool) (h : r ≠ Reg.vf) :
    (s.setCollision c).readV r = s.readV r := State.readV_writeV_other s _ h

/-! ## The record of values that keeps the register file and memory readable -/

/-- Two states with the same register file read every register alike. -/
theorem State.readV_congr {s t : State} (h : t.v = s.v) (r : Reg) : t.readV r = s.readV r := by
  simp [State.readV, h]

/-- Two states with the same memory list read every byte alike. -/
theorem State.byteAt_congr {s t : State} (h : t.mem = s.mem) (a : Nat) : t.byteAt a = s.byteAt a := by
  simp [State.byteAt, h]

end Sys2Proof.Machine
end

