-- ==== Sys2Proof/Laws/Memory.lean ====
section
/-! SUPPORT. The laws of memory: a read after a write, that every write keeps the canonical form, and that in the
canonical form equal memories are equal lists (20_memory.md R50, R61). -/

namespace Sys2Proof.Machine

/-! ## Finding after inserting and erasing -/

theorem Memory.find_insert (m : Memory) (a : Nat) (b : Byte) (k : Nat) :
    Memory.find (Memory.insert m a b) k = if a = k then some b else Memory.find m k := by
  induction m with
  | nil => simp [Memory.insert, Memory.find]
  | cons c m ih =>
    obtain ⟨k', c⟩ := c
    simp only [Memory.insert]
    split
    · simp [Memory.find]
    · split
      · next h => subst h; simp only [Memory.find]; split <;> simp_all
      · simp only [Memory.find, ih]; split <;> split <;> simp_all

theorem Memory.find_erase (m : Memory) (a k : Nat) :
    Memory.find (Memory.erase m a) k = if a = k then none else Memory.find m k := by
  induction m with
  | nil => simp [Memory.erase, Memory.find]
  | cons c m ih =>
    obtain ⟨k', c⟩ := c
    simp only [Memory.erase, List.filter_cons, bne_iff_ne, ne_eq] at ih ⊢
    by_cases h : k' = a
    · subst h; simp only [not_true_eq_false, if_false, ih, Memory.find]; split <;> simp_all
    · simp only [h, not_false_eq_true, if_true, Memory.find, ih]; split <;> split <;> simp_all

/-- A read after a write. -/
theorem Memory.read_write (m : Memory) (a : Nat) (b : Byte) (k : Nat) :
    Memory.read (Memory.write m a b) k = if a = k then some b else Memory.read m k := by
  by_cases h : Memory.unlisted a = some b
  · simp only [Memory.read, Memory.write, h, if_true, Memory.find_erase]
    by_cases hk : a = k <;> simp_all
  · simp only [Memory.read, Memory.write, h, if_false, Memory.find_insert]
    by_cases hk : a = k <;> simp_all

/-! ## The canonical form is kept -/

theorem Memory.wfFrom_mono {m : Memory} {lo lo' : Nat} (h : Memory.wfFrom lo m = true) (hl : lo' ≤ lo) :
    Memory.wfFrom lo' m = true := by
  cases m with
  | nil => rfl
  | cons c m =>
    simp only [Memory.wfFrom, Bool.and_eq_true, decide_eq_true_eq] at h ⊢
    exact ⟨⟨⟨by omega, h.1.1.2⟩, h.1.2⟩, h.2⟩

theorem Memory.wfFrom_erase {m : Memory} {lo : Nat} (a : Nat) (h : Memory.wfFrom lo m = true) :
    Memory.wfFrom lo (Memory.erase m a) = true := by
  induction m generalizing lo with
  | nil => rfl
  | cons c m ih =>
    simp only [Memory.wfFrom, Bool.and_eq_true, decide_eq_true_eq] at h
    simp only [Memory.erase, List.filter_cons] at ih ⊢
    split
    · simp only [Memory.wfFrom, Bool.and_eq_true, decide_eq_true_eq]
      exact ⟨h.1, ih h.2⟩
    · exact ih (Memory.wfFrom_mono h.2 (by omega))

theorem Memory.wfFrom_insert {m : Memory} {lo a : Nat} {b : Byte} (h : Memory.wfFrom lo m = true) (hlo : lo ≤ a)
    (ha : a < 4096) (hb : Memory.unlisted a ≠ some b) : Memory.wfFrom lo (Memory.insert m a b) = true := by
  induction m generalizing lo with
  | nil => simp [Memory.insert, Memory.wfFrom, hlo, ha, hb]
  | cons c m ih =>
    obtain ⟨k, c⟩ := c
    simp only [Memory.wfFrom, Bool.and_eq_true, decide_eq_true_eq] at h
    simp only [Memory.insert]
    split
    · simp only [Memory.wfFrom, Bool.and_eq_true, decide_eq_true_eq, bne_iff_ne]
      exact ⟨⟨⟨hlo, ha⟩, hb⟩, ⟨⟨by omega, h.1.1.2⟩, by simpa using h.1.2⟩, h.2⟩
    · split
      · next hk =>
        subst hk
        simp only [Memory.wfFrom, Bool.and_eq_true, decide_eq_true_eq, bne_iff_ne]
        exact ⟨⟨⟨hlo, ha⟩, hb⟩, h.2⟩
      · simp only [Memory.wfFrom, Bool.and_eq_true, decide_eq_true_eq]
        exact ⟨h.1, ih h.2 (by omega)⟩

/-- Every write below 4096 keeps the canonical form. -/
theorem Memory.wf_write {m : Memory} (h : Memory.wf m = true) {a : Nat} (ha : a < 4096) (b : Byte) :
    Memory.wf (Memory.write m a b) = true := by
  simp only [Memory.wf, Memory.write] at *
  split
  · exact Memory.wfFrom_erase a h
  · next hb => exact Memory.wfFrom_insert h (Nat.zero_le a) ha hb

theorem Memory.wf_nil : Memory.wf [] = true := rfl

/-! ## Equal memories are equal lists -/

theorem Memory.find_none_below {m : Memory} {lo a : Nat} (h : Memory.wfFrom lo m = true) (ha : a < lo) :
    Memory.find m a = none := by
  induction m generalizing lo with
  | nil => rfl
  | cons c m ih =>
    obtain ⟨k, c⟩ := c
    simp only [Memory.wfFrom, Bool.and_eq_true, decide_eq_true_eq] at h
    simp only [Memory.find, show k ≠ a by omega, if_false]
    exact ih h.2 (by omega)

/-- No address of 4096 or more is listed (20_memory.md R58). -/
theorem Memory.find_none_above {m : Memory} (h : Memory.wf m = true) {a : Nat} (ha : 4096 ≤ a) :
    Memory.find m a = none := by
  have go : ∀ (m : Memory) (lo : Nat), Memory.wfFrom lo m = true → Memory.find m a = none := by
    intro m
    induction m with
    | nil => intros; rfl
    | cons c m ih =>
      intro lo h
      obtain ⟨k, c⟩ := c
      simp only [Memory.wfFrom, Bool.and_eq_true, decide_eq_true_eq] at h
      simp only [Memory.find, show k ≠ a by omega, if_false]
      exact ih _ h.2
  exact go m 0 h

/-- In the canonical form a listed byte is not what an unlisted address reads as, so the read decides the list. -/
theorem Memory.find_eq_of_read_eq {m m' : Memory} {lo lo' : Nat} (h : Memory.wfFrom lo m = true)
    (h' : Memory.wfFrom lo' m' = true) {a : Nat} (hr : Memory.read m a = Memory.read m' a) :
    Memory.find m a = Memory.find m' a := by
  have ne : ∀ (m : Memory) (lo : Nat), Memory.wfFrom lo m = true → ∀ b, Memory.find m a = some b →
      Memory.unlisted a ≠ some b := by
    intro m
    induction m with
    | nil => intro _ _ b hb; simp [Memory.find] at hb
    | cons c m ih =>
      intro lo h b hb
      obtain ⟨k, c⟩ := c
      simp only [Memory.wfFrom, Bool.and_eq_true, decide_eq_true_eq, bne_iff_ne] at h
      simp only [Memory.find] at hb
      split at hb
      · next hk => subst hk; cases hb; exact h.1.2
      · exact ih _ h.2 b hb
  simp only [Memory.read] at hr
  cases hf : Memory.find m a with
  | none =>
    cases hf' : Memory.find m' a with
    | none => rfl
    | some b' => rw [hf, hf'] at hr; exact absurd hr (ne m' lo' h' b' hf')
  | some b =>
    cases hf' : Memory.find m' a with
    | none => rw [hf, hf'] at hr; exact absurd hr.symm (ne m lo h b hf)
    | some b' => rw [hf, hf'] at hr; exact hr

theorem Memory.ext_of_find {m m' : Memory} {lo lo' : Nat} (h : Memory.wfFrom lo m = true)
    (h' : Memory.wfFrom lo' m' = true) (hf : ∀ a, Memory.find m a = Memory.find m' a) : m = m' := by
  induction m generalizing lo lo' m' with
  | nil =>
    cases m' with
    | nil => rfl
    | cons c m' => have := hf c.1; simp [Memory.find] at this
  | cons c m ih =>
    obtain ⟨k, b⟩ := c
    cases m' with
    | nil => have := hf k; simp [Memory.find] at this
    | cons c' m' =>
      obtain ⟨k', b'⟩ := c'
      simp only [Memory.wfFrom, Bool.and_eq_true, decide_eq_true_eq] at h h'
      have hk : k = k' := by
        rcases Nat.lt_trichotomy k k' with hlt | heq | hgt
        · have := hf k
          simp only [Memory.find, if_true, show k' ≠ k by omega, if_false,
            Memory.find_none_below h'.2 (show k < k' + 1 by omega)] at this
          exact absurd this (by simp)
        · exact heq
        · have := hf k'
          simp only [Memory.find, if_true, show k ≠ k' by omega, if_false,
            Memory.find_none_below h.2 (show k' < k + 1 by omega)] at this
          exact absurd this (by simp)
      subst hk
      have hb : b = b' := by have := hf k; simpa [Memory.find] using this
      subst hb
      congr 1
      refine ih h.2 h'.2 fun a => ?_
      by_cases ha : k = a
      · subst ha
        rw [Memory.find_none_below h.2 (by omega), Memory.find_none_below h'.2 (by omega)]
      · have := hf a; simpa [Memory.find, ha] using this

/-- Memories in canonical form that read alike everywhere are the same list. -/
theorem Memory.ext_of_read {m m' : Memory} (h : Memory.wf m = true) (h' : Memory.wf m' = true)
    (hr : ∀ a, Memory.read m a = Memory.read m' a) : m = m' :=
  Memory.ext_of_find h h' fun a => Memory.find_eq_of_read_eq h h' (hr a)

end Sys2Proof.Machine
end

