-- ==== Sys2Proof/Laws/Ops.lean ====
section
/-! SUPPORT. One lemma for each thing a shared operation can do: reads, writes, the stack, the environment's answers. -/

namespace Sys2Proof.Machine

/-! ## The environment's answers -/

@[simp] theorem Draws.next_given {α : Type} (free : Nat → α) (a : α) (l : List α) (n : Nat) :
    ({ given := a :: l, taken := n } : Draws α).next free = a := rfl

@[simp] theorem Draws.next_free {α : Type} (free : Nat → α) (n : Nat) :
    ({ given := [], taken := n } : Draws α).next free = free n := rfl

/-- The next answer is answer 0 from now. -/
theorem Draws.next_eq_nthAnswer {α : Type} (free : Nat → α) (d : Draws α) : d.next free = nthAnswer free d 0 := by
  obtain ⟨g, n⟩ := d
  cases g <;> simp [Draws.next, nthAnswer]

/-- After one query every answer is one nearer. -/
theorem nthAnswer_advance {α : Type} (free : Nat → α) (d : Draws α) (k : Nat) :
    nthAnswer free d.advance k = nthAnswer free d (k + 1) := by
  obtain ⟨g, n⟩ := d
  cases g <;> simp [Draws.advance, nthAnswer, Nat.add_comm, Nat.add_left_comm]

/-! ## Reads -/

theorem State.readByte_inside {s : State} {a : Nat} (h : a < 4096) : s.readByte a = s.byteAt a := by
  simp [State.readByte, h]

theorem State.readByte_outside {s : State} {a : Nat} (h : 4096 ≤ a) :
    s.readByte a = s.stray.next Config.strayByte := by
  simp [State.readByte, Nat.not_lt.mpr h]

theorem State.afterRead_inside {s : State} {a : Nat} (h : a < 4096) : s.afterRead a = s := by
  simp [State.afterRead, h]

theorem State.afterRead_outside {s : State} {a : Nat} (h : 4096 ≤ a) :
    s.afterRead a = { s with stray := s.stray.advance } := by
  simp [State.afterRead, Nat.not_lt.mpr h]

/-- A read changes nothing but which stray answer is next. -/
theorem State.afterRead_cases (s : State) (a : Nat) :
    (a < 4096 ∧ s.afterRead a = s) ∨ (4096 ≤ a ∧ s.afterRead a = { s with stray := s.stray.advance }) := by
  rcases Nat.lt_or_ge a 4096 with h | h
  · exact .inl ⟨h, State.afterRead_inside h⟩
  · exact .inr ⟨h, State.afterRead_outside h⟩

/-- Every field but `stray` survives a read. -/
theorem State.afterRead_eq (s : State) (a : Nat) : ∃ d, s.afterRead a = { s with stray := d } := by
  rcases State.afterRead_cases s a with ⟨-, h⟩ | ⟨-, h⟩
  · exact ⟨s.stray, h⟩
  · exact ⟨_, h⟩

@[simp] theorem State.afterRead_v (s : State) (a : Nat) : (s.afterRead a).v = s.v := by
  obtain ⟨d, h⟩ := s.afterRead_eq a; rw [h]
@[simp] theorem State.afterRead_i (s : State) (a : Nat) : (s.afterRead a).i = s.i := by
  obtain ⟨d, h⟩ := s.afterRead_eq a; rw [h]
@[simp] theorem State.afterRead_pc (s : State) (a : Nat) : (s.afterRead a).pc = s.pc := by
  obtain ⟨d, h⟩ := s.afterRead_eq a; rw [h]
@[simp] theorem State.afterRead_sp (s : State) (a : Nat) : (s.afterRead a).sp = s.sp := by
  obtain ⟨d, h⟩ := s.afterRead_eq a; rw [h]
@[simp] theorem State.afterRead_dt (s : State) (a : Nat) : (s.afterRead a).dt = s.dt := by
  obtain ⟨d, h⟩ := s.afterRead_eq a; rw [h]
@[simp] theorem State.afterRead_st (s : State) (a : Nat) : (s.afterRead a).st = s.st := by
  obtain ⟨d, h⟩ := s.afterRead_eq a; rw [h]
@[simp] theorem State.afterRead_changed (s : State) (a : Nat) : (s.afterRead a).changed = s.changed := by
  obtain ⟨d, h⟩ := s.afterRead_eq a; rw [h]
@[simp] theorem State.afterRead_icount (s : State) (a : Nat) : (s.afterRead a).icount = s.icount := by
  obtain ⟨d, h⟩ := s.afterRead_eq a; rw [h]
@[simp] theorem State.afterRead_run (s : State) (a : Nat) : (s.afterRead a).run = s.run := by
  obtain ⟨d, h⟩ := s.afterRead_eq a; rw [h]
@[simp] theorem State.afterRead_uflow (s : State) (a : Nat) : (s.afterRead a).uflow = s.uflow := by
  obtain ⟨d, h⟩ := s.afterRead_eq a; rw [h]
@[simp] theorem State.afterRead_mem (s : State) (a : Nat) : (s.afterRead a).mem = s.mem := by
  obtain ⟨d, h⟩ := s.afterRead_eq a; rw [h]
@[simp] theorem State.afterRead_hold (s : State) (a : Nat) : (s.afterRead a).hold = s.hold := by
  obtain ⟨d, h⟩ := s.afterRead_eq a; rw [h]
@[simp] theorem State.afterRead_redrawReq (s : State) (a : Nat) : (s.afterRead a).redrawReq = s.redrawReq := by
  obtain ⟨d, h⟩ := s.afterRead_eq a; rw [h]
@[simp] theorem State.afterRead_rnd (s : State) (a : Nat) : (s.afterRead a).rnd = s.rnd := by
  obtain ⟨d, h⟩ := s.afterRead_eq a; rw [h]
@[simp] theorem State.afterRead_keys (s : State) (a : Nat) : (s.afterRead a).keys = s.keys := by
  obtain ⟨d, h⟩ := s.afterRead_eq a; rw [h]
@[simp] theorem State.afterRead_readV (s : State) (a : Nat) (r : Reg) : (s.afterRead a).readV r = s.readV r :=
  State.readV_congr (s.afterRead_v a) r
@[simp] theorem State.afterRead_byteAt (s : State) (a k : Nat) : (s.afterRead a).byteAt k = s.byteAt k :=
  State.byteAt_congr (s.afterRead_mem a) k

/-- A two-byte read, like a one-byte read, changes nothing but which stray answer is next. -/
theorem State.afterReadWord_eq (s : State) (a : Nat) : ∃ d, s.afterReadWord a = { s with stray := d } := by
  obtain ⟨d, h⟩ := s.afterRead_eq a
  obtain ⟨d', h'⟩ := (s.afterRead a).afterRead_eq (a + 1)
  exact ⟨d', by rw [State.afterReadWord, h', h]⟩

theorem State.afterReadWord_stray (s : State) (a : Nat) :
    s.afterReadWord a = { s with stray := (s.afterReadWord a).stray } := by
  obtain ⟨d, h⟩ := s.afterReadWord_eq a
  rw [h]

/-- What a read answers and takes depends on memory and the stray answers alone. -/
theorem State.afterRead_stray_congr {s t : State} (hd : t.stray = s.stray) (a : Nat) :
    (t.afterRead a).stray = (s.afterRead a).stray := by
  rcases Nat.lt_or_ge a 4096 with h | h
  · rw [State.afterRead_inside h, State.afterRead_inside h, hd]
  · rw [State.afterRead_outside h, State.afterRead_outside h, hd]

theorem State.readByte_congr {s t : State} (hm : ∀ a, t.byteAt a = s.byteAt a) (hd : t.stray = s.stray) (a : Nat) :
    t.readByte a = s.readByte a := by
  simp [State.readByte, hm, hd]

theorem State.readWord_congr {s t : State} (hm : ∀ a, t.byteAt a = s.byteAt a) (hd : t.stray = s.stray) (a : Nat) :
    t.readWord a = s.readWord a ∧ (t.afterReadWord a).stray = (s.afterReadWord a).stray := by
  have h1 := State.afterRead_stray_congr hd a
  refine ⟨?_, State.afterRead_stray_congr h1 (a + 1)⟩
  rw [State.readWord, State.readWord, State.readByte_congr hm hd, State.readByte_congr (fun k => ?_) h1]
  rw [State.afterRead_byteAt, State.afterRead_byteAt, hm]

/-- A two-byte read whose bytes both lie in memory is the two bytes, and changes nothing. -/
theorem State.readWord_inside {s : State} {a : Nat} (h : a + 1 < 4096) :
    s.readWord a = joinBytes (s.byteAt a) (s.byteAt (a + 1)) ∧ s.afterReadWord a = s := by
  have h0 : a < 4096 := by omega
  simp [State.readWord, State.afterReadWord, State.afterRead_inside h0, State.afterRead_inside h,
    State.readByte_inside h0, State.readByte_inside h]

/-! ## Writes -/

theorem State.memWrite_inside {s : State} {a : Nat} (h : a < 4096) (b : Byte) :
    s.memWrite a b = { s with mem := Memory.write s.mem a b, changed := s.changed || writeMarksChanged a } := by
  simp [State.memWrite, h]

/-- A write from 4096 on is dropped (20_memory.md R58). -/
theorem State.memWrite_outside {s : State} {a : Nat} (h : 4096 ≤ a) (b : Byte) : s.memWrite a b = s := by
  simp [State.memWrite, Nat.not_lt.mpr h]

/-- Every field but `mem` and `changed` survives a write. -/
theorem State.memWrite_eq (s : State) (a : Nat) (b : Byte) :
    ∃ m c, s.memWrite a b = { s with mem := m, changed := c } := by
  rcases Nat.lt_or_ge a 4096 with h | h
  · exact ⟨_, _, State.memWrite_inside h b⟩
  · exact ⟨s.mem, s.changed, State.memWrite_outside h b⟩

@[simp] theorem State.memWrite_v (s : State) (a : Nat) (b : Byte) : (s.memWrite a b).v = s.v := by
  obtain ⟨m, c, h⟩ := s.memWrite_eq a b; rw [h]
@[simp] theorem State.memWrite_i (s : State) (a : Nat) (b : Byte) : (s.memWrite a b).i = s.i := by
  obtain ⟨m, c, h⟩ := s.memWrite_eq a b; rw [h]
@[simp] theorem State.memWrite_pc (s : State) (a : Nat) (b : Byte) : (s.memWrite a b).pc = s.pc := by
  obtain ⟨m, c, h⟩ := s.memWrite_eq a b; rw [h]
@[simp] theorem State.memWrite_sp (s : State) (a : Nat) (b : Byte) : (s.memWrite a b).sp = s.sp := by
  obtain ⟨m, c, h⟩ := s.memWrite_eq a b; rw [h]
@[simp] theorem State.memWrite_dt (s : State) (a : Nat) (b : Byte) : (s.memWrite a b).dt = s.dt := by
  obtain ⟨m, c, h⟩ := s.memWrite_eq a b; rw [h]
@[simp] theorem State.memWrite_st (s : State) (a : Nat) (b : Byte) : (s.memWrite a b).st = s.st := by
  obtain ⟨m, c, h⟩ := s.memWrite_eq a b; rw [h]
@[simp] theorem State.memWrite_icount (s : State) (a : Nat) (b : Byte) : (s.memWrite a b).icount = s.icount := by
  obtain ⟨m, c, h⟩ := s.memWrite_eq a b; rw [h]
@[simp] theorem State.memWrite_run (s : State) (a : Nat) (b : Byte) : (s.memWrite a b).run = s.run := by
  obtain ⟨m, c, h⟩ := s.memWrite_eq a b; rw [h]
@[simp] theorem State.memWrite_uflow (s : State) (a : Nat) (b : Byte) : (s.memWrite a b).uflow = s.uflow := by
  obtain ⟨m, c, h⟩ := s.memWrite_eq a b; rw [h]
@[simp] theorem State.memWrite_hold (s : State) (a : Nat) (b : Byte) : (s.memWrite a b).hold = s.hold := by
  obtain ⟨m, c, h⟩ := s.memWrite_eq a b; rw [h]
@[simp] theorem State.memWrite_redrawReq (s : State) (a : Nat) (b : Byte) :
    (s.memWrite a b).redrawReq = s.redrawReq := by
  obtain ⟨m, c, h⟩ := s.memWrite_eq a b; rw [h]
@[simp] theorem State.memWrite_rnd (s : State) (a : Nat) (b : Byte) : (s.memWrite a b).rnd = s.rnd := by
  obtain ⟨m, c, h⟩ := s.memWrite_eq a b; rw [h]
@[simp] theorem State.memWrite_keys (s : State) (a : Nat) (b : Byte) : (s.memWrite a b).keys = s.keys := by
  obtain ⟨m, c, h⟩ := s.memWrite_eq a b; rw [h]
@[simp] theorem State.memWrite_stray (s : State) (a : Nat) (b : Byte) : (s.memWrite a b).stray = s.stray := by
  obtain ⟨m, c, h⟩ := s.memWrite_eq a b; rw [h]
@[simp] theorem State.memWrite_readV (s : State) (a : Nat) (b : Byte) (r : Reg) :
    (s.memWrite a b).readV r = s.readV r :=
  State.readV_congr (s.memWrite_v a b) r

/-- The byte at an address after a write: the byte written where it was written below 4096, else the old one. -/
theorem State.byteAt_memWrite (s : State) (a : Nat) (b : Byte) (k : Nat) :
    (s.memWrite a b).byteAt k = if a = k ∧ a < 4096 then b else s.byteAt k := by
  rcases Nat.lt_or_ge a 4096 with h | h
  · simp only [State.memWrite_inside h, State.byteAt, Memory.read_write]
    by_cases hk : a = k
    · subst hk; simp [h]
    · simp [hk]
  · simp [State.memWrite_outside h, show ¬ a < 4096 by omega]

/-- `changed` after a write: set by a byte that lands in 0xF00 to 0xFFF, else as it was (10_state.md R32). -/
theorem State.changed_memWrite (s : State) (a : Nat) (b : Byte) :
    (s.memWrite a b).changed = (s.changed || decide (0xF00 ≤ a ∧ a < 4096)) := by
  rcases Nat.lt_or_ge a 4096 with h | h
  · simp [State.memWrite_inside h, writeMarksChanged, h]
  · simp [State.memWrite_outside h, show ¬ a < 4096 by omega]

/-- A write keeps memory's canonical form. -/
theorem State.wf_memWrite {s : State} (h : s.mem.wf = true) (a : Nat) (b : Byte) : (s.memWrite a b).mem.wf = true := by
  rcases Nat.lt_or_ge a 4096 with ha | ha
  · rw [State.memWrite_inside ha]; exact Memory.wf_write h ha b
  · rw [State.memWrite_outside ha]; exact h

/-! ## The stack -/

/-- All a push does (41_control.md R123). -/
theorem State.push_eq (s : State) (w : Word) :
    s.push w = { s.memWriteWord s.sp.toNat w with sp := s.sp + 2 } := by
  simp [State.push, State.memWriteWord]

/-- Every field but `sp`, `mem` and `changed` survives a push. -/
theorem State.push_fields (s : State) (w : Word) : ∃ m c, s.push w = { s with sp := s.sp + 2, mem := m, changed := c } := by
  obtain ⟨m, c, h⟩ := s.memWrite_eq s.sp.toNat (hiByte w)
  obtain ⟨m', c', h'⟩ := (s.memWrite s.sp.toNat (hiByte w)).memWrite_eq (s.sp.toNat + 1) (loByte w)
  exact ⟨m', c', by rw [State.push_eq, State.memWriteWord, h', h]⟩

/-- A byte after a push: the low byte at `SP + 1`, the high byte at `SP`, each below 4096, else as before. -/
theorem State.byteAt_push (s : State) (w : Word) (a : Nat) :
    (s.push w).byteAt a =
      if s.sp.toNat + 1 = a ∧ s.sp.toNat + 1 < 4096 then loByte w
      else if s.sp.toNat = a ∧ s.sp.toNat < 4096 then hiByte w
      else s.byteAt a := by
  rw [State.push_eq]
  show (s.memWriteWord s.sp.toNat w).byteAt a = _
  rw [State.memWriteWord, State.byteAt_memWrite, State.byteAt_memWrite]

/-- `changed` after a push (10_state.md R32). -/
theorem State.changed_push (s : State) (w : Word) :
    (s.push w).changed = (s.changed || decide (0xF00 ≤ s.sp.toNat ∧ s.sp.toNat < 4096) ||
      decide (0xF00 ≤ s.sp.toNat + 1 ∧ s.sp.toNat + 1 < 4096)) := by
  rw [State.push_eq]
  show (s.memWriteWord s.sp.toNat w).changed = _
  rw [State.memWriteWord, State.changed_memWrite, State.changed_memWrite]

/-- A push keeps memory's canonical form. -/
theorem State.wf_push {s : State} (h : s.mem.wf = true) (w : Word) : (s.push w).mem.wf = true := by
  rw [State.push_eq]
  exact State.wf_memWrite (State.wf_memWrite h _ _) _ _

end Sys2Proof.Machine
end

