-- ==== Sys2Proof/Laws/Exec.lean ====
section
/-! SUPPORT. Each arm of `exec` as the state it answers, so that no later proof unfolds the dispatch or a meaning, and
the frames of the loops that a meaning runs. -/

namespace Sys2Proof.Machine

/-! ## The arms -/

theorem exec_halt (s : State) : exec .halt s = .next { s with run := .halted } := rfl
theorem exec_cls (s : State) : exec .cls s = .next (State.zeroBytes 256 0xF00 s).markChanged := rfl
theorem exec_ret (s : State) : exec .ret s =
    .next (((if s.popUnderflows then s.reportUnderflow else s).dropSp.afterReadWord (s.sp - 2).toNat).jumpTo
      ((if s.popUnderflows then s.reportUnderflow else s).dropSp.readWord (s.sp - 2).toNat)) := by
  cases h : s.popUnderflows <;> simp [exec, execRet, h]
theorem exec_sys (nnn : Addr12) (s : State) : exec (.sys nnn) s = .next s := rfl
theorem exec_jp (nnn : Addr12) (s : State) : exec (.jp nnn) s = .next (s.jumpTo (addrOperand nnn)) := rfl
theorem exec_call (nnn : Addr12) (s : State) :
    exec (.call nnn) s = .next ((s.push s.pc).jumpTo (addrOperand nnn)) := rfl
theorem exec_seImm (x : Reg) (kk : Byte) (s : State) :
    exec (.seImm x kk) s = .next (s.skipIf (s.readV x == kk)) := rfl
theorem exec_sneImm (x : Reg) (kk : Byte) (s : State) :
    exec (.sneImm x kk) s = .next (s.skipIf (s.readV x != kk)) := rfl
theorem exec_seReg (x y : Reg) (s : State) :
    exec (.seReg x y) s = .next (s.skipIf (s.readV x == s.readV y)) := rfl
theorem exec_ldImm (x : Reg) (kk : Byte) (s : State) : exec (.ldImm x kk) s = .next (s.writeV x kk) := rfl
theorem exec_addImm (x : Reg) (kk : Byte) (s : State) :
    exec (.addImm x kk) s = .next (s.writeV x (s.readV x + kk)) := rfl
theorem exec_ldReg (x y : Reg) (s : State) : exec (.ldReg x y) s = .next (s.writeV x (s.readV y)) := rfl
theorem exec_orReg (x y : Reg) (s : State) :
    exec (.orReg x y) s = .next (s.writeV x (s.readV x ||| s.readV y)) := rfl
theorem exec_andReg (x y : Reg) (s : State) :
    exec (.andReg x y) s = .next (s.writeV x (s.readV x &&& s.readV y)) := rfl
theorem exec_xorReg (x y : Reg) (s : State) :
    exec (.xorReg x y) s = .next (s.writeV x (s.readV x ^^^ s.readV y)) := rfl
theorem exec_addReg (x y : Reg) (s : State) :
    exec (.addReg x y) s = .next (s.writeV x (s.readV x + s.readV y)) := rfl
theorem exec_subReg (x y : Reg) (s : State) :
    exec (.subReg x y) s = .next (s.writeV x (s.readV x - s.readV y)) := rfl
theorem exec_shr (x y : Reg) (s : State) : exec (.shr x y) s = .next (s.writeV x (s.readV x >>> 1)) := rfl
theorem exec_subn (x y : Reg) (s : State) :
    exec (.subn x y) s = .next (s.writeV x (s.readV y - s.readV x)) := rfl
theorem exec_shl (x y : Reg) (s : State) : exec (.shl x y) s = .next (s.writeV x (s.readV x <<< 1)) := rfl
theorem exec_sneReg (x y : Reg) (s : State) :
    exec (.sneReg x y) s = .next (s.skipIf (s.readV x != s.readV y)) := rfl
theorem exec_ldI (nnn : Addr12) (s : State) : exec (.ldI nnn) s = .next (s.writeI (addrOperand nnn)) := rfl
theorem exec_jpV0 (nnn : Addr12) (s : State) :
    exec (.jpV0 nnn) s = .next (s.jumpTo (addrOperand nnn + byteToWord (s.readV 0))) := rfl
theorem exec_rnd (x : Reg) (kk : Byte) (s : State) :
    exec (.rnd x kk) s = .next (s.afterRnd.writeV x (s.rndByte &&& kk)) := rfl
theorem exec_drw (x y : Reg) (n : Nibble) (s : State) :
    exec (.drw x y n) s = .next ((s.blit x y n).2.setCollision (s.blit x y n).1).markChanged := rfl
theorem exec_skp (x : Reg) (s : State) :
    exec (.skp x) s = .next (s.afterKey.skipIf (keyEquals s.keySample (s.readV x))) := rfl
theorem exec_sknp (x : Reg) (s : State) :
    exec (.sknp x) s = .next (s.afterKey.skipIf (keyDiffers s.keySample (s.readV x))) := rfl
theorem exec_ldVxDt (x : Reg) (s : State) : exec (.ldVxDt x) s = .next (s.writeV x s.dt) := rfl
theorem exec_ldVxK (x : Reg) (s : State) : exec (.ldVxK x) s = .next (s.awaitKey x) := rfl
theorem exec_ldDtVx (x : Reg) (s : State) : exec (.ldDtVx x) s = .next { s with dt := s.readV x } := rfl
theorem exec_ldStVx (x : Reg) (s : State) : exec (.ldStVx x) s = .next { s with st := s.readV x } := rfl
theorem exec_addI (x : Reg) (s : State) :
    exec (.addI x) s = .next (s.writeI (s.i + byteToWord (s.readV x))) := rfl
theorem exec_ldF (x : Reg) (s : State) : exec (.ldF x) s = .next (s.writeI (byteToWord (s.readV x) * 5)) := rfl
theorem exec_ldB (x : Reg) (s : State) : exec (.ldB x) s = .next (s.writeI (packedDigits (s.readV x))) := rfl
theorem exec_ldMemVx (x : Reg) (s : State) :
    exec (.ldMemVx x) s = .next (State.storeRegs s.i.toNat (regsThrough x) s) := rfl
theorem exec_ldVxMem (x : Reg) (s : State) :
    exec (.ldVxMem x) s = .next (State.loadRegs s.i.toNat (regsThrough x) s) := rfl
theorem exec_rsv5 (x y : Reg) (sub : Nibble) (s : State) : exec (.rsv5 x y sub) s = .next s := rfl
theorem exec_rsv8 (x y : Reg) (sub : Nibble) (s : State) : exec (.rsv8 x y sub) s = .next s := rfl
theorem exec_rsv9 (x y : Reg) (sub : Nibble) (s : State) : exec (.rsv9 x y sub) s = .next s := rfl
theorem exec_rsvE (x : Reg) (sub : Byte) (s : State) : exec (.rsvE x sub) s = .next s := rfl
theorem exec_rsvF (x : Reg) (sub : Byte) (s : State) : exec (.rsvF x sub) s = .next s := rfl

/-! ## The return -/

/-- A return as one update of the state it starts from. -/
theorem exec_ret_eq (s : State) : exec .ret s = .next { s with
    sp := s.sp - 2, uflow := s.uflow || decide (s.sp.toNat < 0xEA2), pc := s.readWord (s.sp - 2).toNat,
    stray := (s.afterReadWord (s.sp - 2).toNat).stray } := by
  have key : ∀ t : State, t.sp = s.sp - 2 → t.mem = s.mem → t.stray = s.stray →
      (t.afterReadWord (s.sp - 2).toNat).jumpTo (t.readWord (s.sp - 2).toNat) =
        { t with pc := s.readWord (s.sp - 2).toNat, stray := (s.afterReadWord (s.sp - 2).toNat).stray } := by
    intro t _ hm hd
    obtain ⟨h1, h2⟩ := State.readWord_congr (fun a => State.byteAt_congr hm a) hd (s.sp - 2).toNat
    rw [h1, State.afterReadWord_stray, h2]; rfl
  have hp : s.popUnderflows = decide (s.sp.toNat < 0xEA2) := rfl
  rw [exec_ret]
  by_cases hu : s.sp.toNat < 0xEA2
  · simp only [hp, hu, decide_true, if_true, Bool.or_true]
    rw [key s.reportUnderflow.dropSp rfl rfl rfl]; rfl
  · simp only [hp, hu, decide_false, Bool.or_false, Bool.false_eq_true, if_false]
    rw [key s.dropSp rfl rfl rfl]; rfl

/-! ## Skips and the key wait -/

/-- A skip changes `PC` alone. -/
theorem State.skipIf_eq (s : State) (c : Bool) : s.skipIf c = { s with pc := if c then s.pc + 2 else s.pc } := by
  cases c <;> rfl

/-- All a sample of the key wait can do (46_keypad.md R182). -/
theorem State.awaitKey_cases (s : State) (x : Reg) :
    (∃ k, s.keySample = some k ∧ s.awaitKey x = { s.afterKey.writeV x (keyToByte k) with hold := none }) ∨
    (s.keySample = none ∧ s.awaitKey x = { s.afterKey with hold := some x }) := by
  cases h : s.keySample with
  | some k => exact .inl ⟨k, rfl, by simp [State.awaitKey, h]⟩
  | none => exact .inr ⟨rfl, by simp [State.awaitKey, h]⟩

/-! ## The loops over memory -/

/-- Zeroing a run of bytes: those below 4096 become 0, no other byte changes. -/
theorem State.byteAt_zeroBytes (n a : Nat) (s : State) (k : Nat) :
    (State.zeroBytes n a s).byteAt k = if a ≤ k ∧ k < a + n ∧ k < 4096 then 0 else s.byteAt k := by
  induction n generalizing a s with
  | zero => simp [State.zeroBytes]; omega
  | succ n ih =>
    rw [State.zeroBytes, ih, State.byteAt_memWrite]
    by_cases hk : a = k
    · subst hk; by_cases h4 : a < 4096 <;> simp [h4]
    · rw [if_neg (show ¬ (a = k ∧ a < 4096) from fun h => hk h.1)]
      by_cases hc : a + 1 ≤ k ∧ k < a + 1 + n ∧ k < 4096
      · rw [if_pos hc, if_pos (by omega)]
      · rw [if_neg hc, if_neg (by omega)]

/-- Zeroing changes memory and `changed` alone. -/
theorem State.zeroBytes_eq (n a : Nat) (s : State) :
    ∃ m c, State.zeroBytes n a s = { s with mem := m, changed := c } := by
  induction n generalizing a s with
  | zero => exact ⟨s.mem, s.changed, rfl⟩
  | succ n ih =>
    obtain ⟨m, c, h⟩ := ih (a + 1) (s.memWrite a 0)
    obtain ⟨m', c', h'⟩ := s.memWrite_eq a 0
    exact ⟨m, c, by rw [State.zeroBytes, h, h']⟩

theorem State.wf_zeroBytes {s : State} (h : s.mem.wf = true) (n a : Nat) :
    (State.zeroBytes n a s).mem.wf = true := by
  induction n generalizing a s with
  | zero => exact h
  | succ n ih => exact ih (State.wf_memWrite h a 0) (a + 1)

/-- Storing registers changes memory and `changed` alone. -/
theorem State.storeRegs_eq (base : Nat) (rs : List Reg) (s : State) :
    ∃ m c, State.storeRegs base rs s = { s with mem := m, changed := c } := by
  induction rs generalizing s with
  | nil => exact ⟨s.mem, s.changed, rfl⟩
  | cons r rs ih =>
    obtain ⟨m, c, h⟩ := ih (s.memWrite (base + r.val) (s.readV r))
    obtain ⟨m', c', h'⟩ := s.memWrite_eq (base + r.val) (s.readV r)
    exact ⟨m, c, by rw [State.storeRegs, h, h']⟩

theorem State.wf_storeRegs {s : State} (h : s.mem.wf = true) (base : Nat) (rs : List Reg) :
    (State.storeRegs base rs s).mem.wf = true := by
  induction rs generalizing s with
  | nil => exact h
  | cons r rs ih => exact ih (State.wf_memWrite h _ _)

/-- A byte after storing registers: the register's at its address below 4096, any other as before. -/
theorem State.byteAt_storeRegs (base : Nat) (rs : List Reg) (s : State) (k : Nat) :
    (∀ r ∈ rs, base + r.val = k → k < 4096 → (State.storeRegs base rs s).byteAt k = s.readV r) ∧
    ((∀ r ∈ rs, base + r.val ≠ k) ∨ 4096 ≤ k → (State.storeRegs base rs s).byteAt k = s.byteAt k) := by
  induction rs generalizing s with
  | nil => simp [State.storeRegs]
  | cons q rs ih =>
    obtain ⟨ih1, ih2⟩ := ih (s.memWrite (base + q.val) (s.readV q))
    refine ⟨fun r hr hk h4 => ?_, fun h => ?_⟩
    · rw [State.storeRegs]
      by_cases hm : ∃ r' ∈ rs, base + r'.val = k
      · obtain ⟨r', hr', hk'⟩ := hm
        have : r' = r := Fin.ext (by omega)
        subst this
        rw [ih1 r' hr' hk' h4, State.memWrite_readV]
      · rw [ih2 (.inl fun r' hr' hk' => hm ⟨r', hr', hk'⟩), State.byteAt_memWrite]
        have hq : r = q := by
          rcases List.mem_cons.1 hr with h | h
          · exact h
          · exact absurd ⟨r, h, hk⟩ hm
        subst hq
        rw [if_pos ⟨hk, by omega⟩]
    · rw [State.storeRegs, ih2 (h.imp_left fun h r hr => h r (List.mem_cons_of_mem _ hr)), State.byteAt_memWrite,
        if_neg]
      rcases h with h | h
      · exact fun hh => h q List.mem_cons_self hh.1
      · omega

/-- `changed` after storing registers (10_state.md R32). -/
theorem State.changed_storeRegs (base : Nat) (rs : List Reg) (s : State) :
    (State.storeRegs base rs s).changed = true ↔
      s.changed = true ∨ ∃ r ∈ rs, 0xF00 ≤ base + r.val ∧ base + r.val < 4096 := by
  induction rs generalizing s with
  | nil => simp [State.storeRegs]
  | cons q rs ih => rw [State.storeRegs, ih, State.changed_memWrite]; simp [or_assoc]

/-- Loading registers changes the register file and the stray answers alone. -/
theorem State.loadRegs_eq (base : Nat) (rs : List Reg) (s : State) :
    ∃ v d, State.loadRegs base rs s = { s with v := v, stray := d } := by
  induction rs generalizing s with
  | nil => exact ⟨s.v, s.stray, rfl⟩
  | cons r rs ih =>
    obtain ⟨v, d, h⟩ := ih ((s.afterRead (base + r.val)).writeV r (s.readByte (base + r.val)))
    obtain ⟨d', h'⟩ := s.afterRead_eq (base + r.val)
    exact ⟨v, d, by rw [State.loadRegs, h, h']; rfl⟩

/-- A register not loaded is as before. -/
theorem State.readV_loadRegs_other (base : Nat) (rs : List Reg) (s : State) {r : Reg} (h : r ∉ rs) :
    (State.loadRegs base rs s).readV r = s.readV r := by
  induction rs generalizing s with
  | nil => rfl
  | cons q rs ih =>
    rw [State.loadRegs, ih _ fun hm => h (List.mem_cons_of_mem _ hm),
      State.readV_writeV_other _ _ (fun e => h (by rw [e]; exact List.mem_cons_self)), State.afterRead_readV]

/-- A register loaded from memory holds the byte at its address. -/
theorem State.readV_loadRegs_inside (base : Nat) (rs : List Reg) (s : State) {r : Reg} (h : r ∈ rs)
    (h4 : base + r.val < 4096) : (State.loadRegs base rs s).readV r = s.byteAt (base + r.val) := by
  induction rs generalizing s with
  | nil => cases h
  | cons q rs ih =>
    rw [State.loadRegs]
    by_cases hm : r ∈ rs
    · rw [ih _ hm, State.writeV_byteAt, State.afterRead_byteAt]
    · have : r = q := (List.mem_cons.1 h).resolve_right hm
      subst this
      rw [State.readV_loadRegs_other _ _ _ hm, State.readV_writeV_same, State.readByte_inside h4]

/-- Loading ascending registers from `base` on takes one stray answer for each address from 4096 on, in order. -/
theorem State.readV_loadRegs_outside (base : Nat) (rs : List Reg) (s : State) (r : Reg) (h : r ∈ rs)
    (h4 : 4096 ≤ base + r.val) (hs : rs.Pairwise (· < ·)) :
    (State.loadRegs base rs s).readV r =
      nthAnswer Config.strayByte s.stray (rs.filter fun q => decide (4096 ≤ base + q.val) && decide (q < r)).length := by
  induction rs generalizing s with
  | nil => cases h
  | cons q rs ih =>
    rw [State.loadRegs]
    rw [List.pairwise_cons] at hs
    by_cases hm : r ∈ rs
    · rw [ih _ hm hs.2]
      have hq : q < r := hs.1 r hm
      rcases Nat.lt_or_ge (base + q.val) 4096 with hb | hb
      · rw [State.writeV_stray, State.afterRead_inside hb, List.filter_cons_of_neg (by simp; omega)]
      · rw [State.writeV_stray, State.afterRead_outside hb, List.filter_cons_of_pos (by simp [hb, hq]),
          nthAnswer_advance, List.length_cons]
    · have : r = q := (List.mem_cons.1 h).resolve_right hm
      subst this
      rw [State.readV_loadRegs_other _ _ _ hm, State.readV_writeV_same, State.readByte_outside h4,
        Draws.next_eq_nthAnswer, List.filter_cons_of_neg (by simp), List.filter_eq_nil_iff.2, List.length_nil]
      intro q' hq'
      simp only [Bool.and_eq_true, decide_eq_true_eq, not_and]
      exact fun _ hlt => lt_asymm (hs.1 q' hq') hlt

/-- A load from memory alone takes no stray answer. -/
theorem State.stray_loadRegs_inside (base : Nat) (rs : List Reg) (s : State) (h : ∀ r ∈ rs, base + r.val < 4096) :
    (State.loadRegs base rs s).stray = s.stray := by
  induction rs generalizing s with
  | nil => rfl
  | cons q rs ih =>
    rw [State.loadRegs, ih _ fun r hr => h r (List.mem_cons_of_mem _ hr), State.writeV_stray,
      State.afterRead_inside (h q List.mem_cons_self)]

/-! ## The registers of a block transfer -/

/-- `regsThrough x` is the registers 0 to `x` (48_block.md R200, R201). -/
theorem mem_regsThrough (x r : Reg) : r ∈ regsThrough x ↔ r ≤ x := by
  revert x r; decide

/-- They ascend (48_block.md R200, R201). -/
theorem pairwise_regsThrough (x : Reg) : (regsThrough x).Pairwise (· < ·) := by
  revert x; decide

/-- How many stray answers the registers below `r` take in a block load from `base`. -/
theorem length_filter_regsThrough (base : Nat) (x r : Reg) (h : r ≤ x) :
    ((regsThrough x).filter fun q => decide (4096 ≤ base + q.val) && decide (q < r)).length =
      base + r.val - max 4096 base := by
  have key : ∀ (k : Fin 17) (x r : Reg), r ≤ x →
      ((regsThrough x).filter fun q => decide (k.val ≤ q.val) && decide (q < r)).length = r.val - k.val := by
    decide +kernel
  have hk : min 16 (4096 - base) < 17 := by omega
  have := key ⟨min 16 (4096 - base), hk⟩ x r h
  rw [← List.filter_congr (p := fun q : Reg => decide (4096 ≤ base + q.val) && decide (q < r))] at this
  · rw [this]; have := r.isLt; dsimp only; omega
  · intro q _
    have := q.isLt
    congr 1
    rw [decide_eq_decide]
    dsimp only; omega

end Sys2Proof.Machine
end

