-- ==== Sys2Proof/Laws/Display.lean ====
section
/-! SUPPORT. What the sprite draw does (45_display.md R171 to R178): row by row, byte by byte, as a mask XORed into
memory, and when it reports a collision. -/

namespace Sys2Proof.Machine

/-! ## One destination byte -/

/-- All one destination byte can do: nothing from 4096 on, else a read, a test and a write. -/
theorem Blit.xorByte_cases (c : Blit) (a : Nat) (part : Byte) :
    (4096 ≤ a ∧ c.xorByte a part = c) ∨
    (a < 4096 ∧ c.xorByte a part =
      (c.1 || collides (c.2.byteAt a) part, c.2.memWrite a (c.2.byteAt a ^^^ part))) := by
  rcases Nat.lt_or_ge a 4096 with h | h
  · exact .inr ⟨h, by simp [Blit.xorByte, h]⟩
  · exact .inl ⟨h, by simp [Blit.xorByte, Nat.not_lt.mpr h]⟩

theorem Blit.byteAt_xorByte (c : Blit) (a : Nat) (part : Byte) (k : Nat) :
    (c.xorByte a part).2.byteAt k = if a = k ∧ a < 4096 then c.2.byteAt k ^^^ part else c.2.byteAt k := by
  rcases c.xorByte_cases a part with ⟨h, e⟩ | ⟨h, e⟩
  · rw [e, if_neg (by omega)]
  · rw [e]
    show (c.2.memWrite a _).byteAt k = _
    rw [State.byteAt_memWrite]
    by_cases hk : a = k
    · subst hk; simp [h]
    · simp [hk]

theorem Blit.coll_xorByte (c : Blit) (a : Nat) (part : Byte) :
    (c.xorByte a part).1 = (c.1 || (decide (a < 4096) && collides (c.2.byteAt a) part)) := by
  rcases c.xorByte_cases a part with ⟨h, e⟩ | ⟨h, e⟩
  · rw [e]; simp [Nat.not_lt.mpr h]
  · rw [e]; simp [h]

theorem Blit.xorByte_eq (c : Blit) (a : Nat) (part : Byte) :
    ∃ m b, (c.xorByte a part).2 = { c.2 with mem := m, changed := b } := by
  rcases c.xorByte_cases a part with ⟨-, e⟩ | ⟨-, e⟩
  · exact ⟨c.2.mem, c.2.changed, by rw [e]⟩
  · rw [e]; exact c.2.memWrite_eq a _

theorem Blit.wf_xorByte {c : Blit} (h : c.2.mem.wf = true) (a : Nat) (part : Byte) :
    (c.xorByte a part).2.mem.wf = true := by
  rcases c.xorByte_cases a part with ⟨-, e⟩ | ⟨-, e⟩
  · rw [e]; exact h
  · rw [e]; exact State.wf_memWrite h _ _

/-- A part turns a lit pixel off exactly when some bit is 1 in the old byte and 0 in the XORed one. -/
theorem collides_iff (old part : Byte) :
    collides old part = true ↔ ∃ k, old.getLsbD k = true ∧ (old ^^^ part).getLsbD k = false := by
  simp only [collides, bne_iff_ne, ne_eq]
  constructor
  · intro h
    by_contra hn
    apply h
    apply BitVec.eq_of_getLsbD_eq
    intro k _
    have hk := not_exists.1 hn k
    simp only [BitVec.getLsbD_xor, BitVec.getLsbD_and] at hk ⊢
    cases ho : old.getLsbD k <;> cases hp : part.getLsbD k <;> simp_all
  · rintro ⟨k, ho, hx⟩ h
    have := congrArg (fun b : Byte => b.getLsbD k) h
    simp only [BitVec.getLsbD_and, BitVec.getLsbD_xor, ho] at this hx
    simp_all

/-! ## One row, and all rows -/

/-- The mask that row `r`, whose sprite byte is `b`, XORs into the byte at address `a`. -/
def rowMask (x0 y0 : Nat) (b : Byte) (r a : Nat) : Byte :=
  if a < 4096 then
    if a = spriteTarget x0 y0 r then leftPart b (bitOffset x0)
    else if hasRightPart x0 = true ∧ a = spriteTarget x0 y0 r + 1 then rightPart b (bitOffset x0)
    else 0
  else 0

theorem Blit.byteAt_drawRow (x0 y0 base : Nat) (c : Blit) (r k : Nat) :
    (Blit.drawRow x0 y0 base c r).2.byteAt k = c.2.byteAt k ^^^ rowMask x0 y0 (c.2.readByte (base + r)) r k := by
  simp only [Blit.drawRow]
  split
  · next h =>
    rw [Blit.byteAt_xorByte, Blit.byteAt_xorByte]
    simp only [State.afterRead_byteAt, rowMask, h]
    by_cases h1 : k = spriteTarget x0 y0 r
    · subst h1; simp
      split <;> simp_all
    · by_cases h2 : k = spriteTarget x0 y0 r + 1
      · subst h2; simp [eq_comm]
        split <;> simp_all
      · simp [h1, h2, Ne.symm h1, Ne.symm h2]
  · next h =>
    rw [Blit.byteAt_xorByte]
    simp only [State.afterRead_byteAt, rowMask, h]
    by_cases h1 : k = spriteTarget x0 y0 r
    · subst h1; simp
      split <;> simp_all
    · simp [h1, Ne.symm h1]

/-- A row changes memory, `changed` and the stray answers alone. -/
theorem Blit.drawRow_eq (x0 y0 base : Nat) (c : Blit) (r : Nat) :
    ∃ m b, (Blit.drawRow x0 y0 base c r).2 = { c.2.afterRead (base + r) with mem := m, changed := b } := by
  simp only [Blit.drawRow]
  split
  · obtain ⟨m, b, h⟩ := Blit.xorByte_eq (c.1, c.2.afterRead (base + r)) (spriteTarget x0 y0 r)
      (leftPart (c.2.readByte (base + r)) (bitOffset x0))
    obtain ⟨m', b', h'⟩ := Blit.xorByte_eq (Blit.xorByte (c.1, c.2.afterRead (base + r)) (spriteTarget x0 y0 r)
      (leftPart (c.2.readByte (base + r)) (bitOffset x0))) (spriteTarget x0 y0 r + 1)
      (rightPart (c.2.readByte (base + r)) (bitOffset x0))
    exact ⟨m', b', by rw [h', h]⟩
  · exact Blit.xorByte_eq (c.1, c.2.afterRead (base + r)) _ _

theorem Blit.wf_drawRow {c : Blit} (h : c.2.mem.wf = true) (x0 y0 base r : Nat) :
    (Blit.drawRow x0 y0 base c r).2.mem.wf = true := by
  have h1 : (c.2.afterRead (base + r)).mem.wf = true := by rw [State.afterRead_mem]; exact h
  simp only [Blit.drawRow]
  split
  · exact Blit.wf_xorByte (Blit.wf_xorByte h1 _ _) _ _
  · exact Blit.wf_xorByte (c := (c.1, c.2.afterRead (base + r))) h1 _ _

theorem Blit.drawRows_zero (x0 y0 base : Nat) (c : Blit) : Blit.drawRows x0 y0 base 0 c = c := rfl

theorem Blit.drawRows_succ (x0 y0 base n : Nat) (c : Blit) :
    Blit.drawRows x0 y0 base (n + 1) c = Blit.drawRow x0 y0 base (Blit.drawRows x0 y0 base n c) n := by
  simp [Blit.drawRows, List.range_succ]

/-- The byte row `r` of a draw reads: the one memory, or the environment, answers when the rows before it are drawn. -/
def rowByte (x0 y0 base : Nat) (c : Blit) (r : Nat) : Byte :=
  (Blit.drawRows x0 y0 base r c).2.readByte (base + r)

/-- The mask that rows 0 to `n - 1` XOR into the byte at address `a`. -/
def drawMask (x0 y0 base : Nat) (c : Blit) : Nat → Nat → Byte
  | 0, _ => 0
  | n + 1, a => drawMask x0 y0 base c n a ^^^ rowMask x0 y0 (rowByte x0 y0 base c n) n a

/-- A draw XORs its mask into memory. -/
theorem Blit.byteAt_drawRows (x0 y0 base n : Nat) (c : Blit) (a : Nat) :
    (Blit.drawRows x0 y0 base n c).2.byteAt a = c.2.byteAt a ^^^ drawMask x0 y0 base c n a := by
  induction n with
  | zero => simp [Blit.drawRows_zero, drawMask]
  | succ n ih => rw [Blit.drawRows_succ, Blit.byteAt_drawRow, ih, drawMask, BitVec.xor_assoc]; rfl

/-- A draw changes memory, `changed` and the stray answers alone. -/
theorem Blit.drawRows_eq (x0 y0 base n : Nat) (c : Blit) :
    ∃ m b d, (Blit.drawRows x0 y0 base n c).2 = { c.2 with mem := m, changed := b, stray := d } := by
  induction n with
  | zero => exact ⟨c.2.mem, c.2.changed, c.2.stray, rfl⟩
  | succ n ih =>
    obtain ⟨m, b, d, h⟩ := ih
    obtain ⟨m', b', h'⟩ := Blit.drawRow_eq x0 y0 base (Blit.drawRows x0 y0 base n c) n
    obtain ⟨d', h''⟩ := (Blit.drawRows x0 y0 base n c).2.afterRead_eq (base + n)
    exact ⟨m', b', d', by rw [Blit.drawRows_succ, h', h'', h]⟩

theorem Blit.wf_drawRows {c : Blit} (h : c.2.mem.wf = true) (x0 y0 base n : Nat) :
    (Blit.drawRows x0 y0 base n c).2.mem.wf = true := by
  induction n with
  | zero => exact h
  | succ n ih => rw [Blit.drawRows_succ]; exact Blit.wf_drawRow ih x0 y0 base n

/-- The stray answers after `n` rows: one taken for each row whose byte lies from 4096 on. -/
theorem Blit.nthAnswer_drawRows (x0 y0 base n : Nat) (c : Blit) (k : Nat) :
    nthAnswer Config.strayByte (Blit.drawRows x0 y0 base n c).2.stray k =
      nthAnswer Config.strayByte c.2.stray (k + (base + n - max 4096 base)) := by
  induction n generalizing k with
  | zero => rw [Blit.drawRows_zero]; congr 1; omega
  | succ n ih =>
    obtain ⟨m', b', h'⟩ := Blit.drawRow_eq x0 y0 base (Blit.drawRows x0 y0 base n c) n
    rw [Blit.drawRows_succ, h']
    show nthAnswer _ ((Blit.drawRows x0 y0 base n c).2.afterRead (base + n)).stray k = _
    rcases Nat.lt_or_ge (base + n) 4096 with h | h
    · rw [State.afterRead_inside h, ih]; congr 1; omega
    · rw [State.afterRead_outside h]
      show nthAnswer _ (Blit.drawRows x0 y0 base n c).2.stray.advance k = _
      rw [nthAnswer_advance, ih]; congr 1; omega

theorem Blit.stray_drawRows (x0 y0 base n : Nat) (c : Blit) (h : base + n ≤ 4096) :
    (Blit.drawRows x0 y0 base n c).2.stray = c.2.stray := by
  induction n with
  | zero => rfl
  | succ n ih =>
    obtain ⟨m', b', h'⟩ := Blit.drawRow_eq x0 y0 base (Blit.drawRows x0 y0 base n c) n
    rw [Blit.drawRows_succ, h']
    show ((Blit.drawRows x0 y0 base n c).2.afterRead (base + n)).stray = _
    rw [State.afterRead_inside (by omega)]
    exact ih (by omega)

/-! ## Each byte is touched by one row at most -/

/-- The mask of a draw at a byte that none of its rows has. -/
theorem drawMask_untouched (x0 y0 base : Nat) (c : Blit) (n a : Nat)
    (h : ∀ r, r < n → rowMask x0 y0 (rowByte x0 y0 base c r) r a = 0) : drawMask x0 y0 base c n a = 0 := by
  induction n with
  | zero => rfl
  | succ n ih => rw [drawMask, ih fun r hr => h r (by omega), h n (by omega)]; simp

/-- The mask of a draw at a byte of row `r` is that row's. -/
theorem drawMask_of_row (x0 y0 base : Nat) (c : Blit) (n a r : Nat) (hr : r < n)
    (h : ∀ r', r' < n → r' ≠ r → rowMask x0 y0 (rowByte x0 y0 base c r') r' a = 0) :
    drawMask x0 y0 base c n a = rowMask x0 y0 (rowByte x0 y0 base c r) r a := by
  induction n with
  | zero => omega
  | succ n ih =>
    rw [drawMask]
    by_cases hn : n = r
    · subst hn
      rw [drawMask_untouched x0 y0 base c n a fun r' hr' => h r' (by omega) (by omega)]; simp
    · rw [ih (by omega) fun r' hr' hne => h r' (by omega) hne, h n (by omega) hn]; simp

/-- Two different rows never have the same byte. -/
theorem rowMask_other (x0 y0 : Nat) (b : Byte) (r r' a : Nat) (hne : r' ≠ r)
    (ha : a = spriteTarget x0 y0 r ∨ a = spriteTarget x0 y0 r + 1) : rowMask x0 y0 b r' a = 0 := by
  simp only [spriteTarget, Config.displayStart] at ha
  have h1 : a ≠ spriteTarget x0 y0 r' := by simp only [spriteTarget, Config.displayStart]; omega
  have h2 : a ≠ spriteTarget x0 y0 r' + 1 := by simp only [spriteTarget, Config.displayStart]; omega
  simp [rowMask, h1, h2]

/-! ## The collision -/

/-- A row reports a collision exactly when one was reported before or a bit of memory goes from 1 to 0 in it. -/
theorem Blit.coll_drawRow (x0 y0 base : Nat) (c : Blit) (r : Nat) :
    (Blit.drawRow x0 y0 base c r).1 = true ↔
      c.1 = true ∨ ∃ a k, (c.2.byteAt a).getLsbD k = true ∧
        ((Blit.drawRow x0 y0 base c r).2.byteAt a).getLsbD k = false := by
  simp only [Blit.byteAt_drawRow]
  simp only [Blit.drawRow]
  generalize hb : c.2.readByte (base + r) = b
  generalize hT : spriteTarget x0 y0 r = T
  have key : ∀ (a : Nat) (part : Byte), rowMask x0 y0 b r a = part →
      (collides (c.2.byteAt a) part = true ↔ ∃ k, (c.2.byteAt a).getLsbD k = true ∧
        (c.2.byteAt a ^^^ rowMask x0 y0 b r a).getLsbD k = false) := by
    intro a part h; rw [h]; exact collides_iff _ _
  split
  · next h =>
    rw [Blit.coll_xorByte, Blit.coll_xorByte, Blit.byteAt_xorByte, if_neg (by omega)]
    simp only [State.afterRead_byteAt, Bool.or_eq_true, Bool.and_eq_true, decide_eq_true_eq, or_assoc]
    refine or_congr_right ⟨?_, ?_⟩
    · rintro (⟨h4, hc⟩ | ⟨h4, hc⟩)
      · exact ⟨T, (key T _ (by simp [rowMask, h4, hT])).1 hc⟩
      · exact ⟨T + 1, (key (T + 1) _ (by simp [rowMask, h4, hT, h])).1 hc⟩
    · rintro ⟨a, k, ho, hx⟩
      by_cases h4 : a < 4096
      · by_cases h1 : a = T
        · subst h1; exact .inl ⟨h4, (key a _ (by simp [rowMask, h4, hT])).2 ⟨k, ho, hx⟩⟩
        · by_cases h2 : a = T + 1
          · subst h2; exact .inr ⟨h4, (key (T + 1) _ (by simp [rowMask, h4, hT, h])).2 ⟨k, ho, hx⟩⟩
          · simp [rowMask, h4, hT, h1, h2] at hx; simp_all
      · simp [rowMask, h4] at hx; simp_all
  · next h =>
    rw [Blit.coll_xorByte]
    simp only [State.afterRead_byteAt, Bool.or_eq_true, Bool.and_eq_true, decide_eq_true_eq]
    refine or_congr_right ⟨?_, ?_⟩
    · rintro ⟨h4, hc⟩
      exact ⟨T, (key T _ (by simp [rowMask, h4, hT])).1 hc⟩
    · rintro ⟨a, k, ho, hx⟩
      by_cases h4 : a < 4096
      · by_cases h1 : a = T
        · subst h1; exact ⟨h4, (key a _ (by simp [rowMask, h4, hT])).2 ⟨k, ho, hx⟩⟩
        · simp [rowMask, h4, hT, h1, h] at hx; simp_all
      · simp [rowMask, h4] at hx; simp_all

end Sys2Proof.Machine
end

