-- ==== Sys2Proof/Laws/Frame.lean ====
section
/-! SUPPORT. Frames: how `SameExcept` is shown, composed and used. -/

namespace Sys2Proof

open Sys2Proof.Machine

theorem SameExcept.refl (regs : List Reg) (parts : List Part) (s : State) : SameExcept regs parts s s := by
  simp [SameExcept]

/-- Two frames in a row: what either may change may have changed. -/
theorem SameExcept.trans {regs regs' : List Reg} {parts parts' : List Part} {s t u : State}
    (h : SameExcept regs parts s t) (h' : SameExcept regs' parts' t u) :
    SameExcept (regs ++ regs') (parts ++ parts') s u := by
  obtain ⟨a1, a2, a3, a4, a5, a6, a7, a8, a9, a10, a11, a12, a13, a14, a15, a16⟩ := h
  obtain ⟨b1, b2, b3, b4, b5, b6, b7, b8, b9, b10, b11, b12, b13, b14, b15, b16⟩ := h'
  simp only [SameExcept, List.mem_append, not_or]
  exact ⟨fun r hr => (b1 r hr.2).trans (a1 r hr.1), fun h => (b2 h.2).trans (a2 h.1),
    fun h => (b3 h.2).trans (a3 h.1), fun h => (b4 h.2).trans (a4 h.1), fun h => (b5 h.2).trans (a5 h.1),
    fun h => (b6 h.2).trans (a6 h.1), fun h => (b7 h.2).trans (a7 h.1), fun h => (b8 h.2).trans (a8 h.1),
    fun h => (b9 h.2).trans (a9 h.1), fun h => (b10 h.2).trans (a10 h.1),
    fun h a => (b11 h.2 a).trans (a11 h.1 a), fun h => (b12 h.2).trans (a12 h.1),
    fun h => (b13 h.2).trans (a13 h.1), fun h => (b14 h.2).trans (a14 h.1), fun h => (b15 h.2).trans (a15 h.1),
    fun h => (b16 h.2).trans (a16 h.1)⟩

/-- A frame that allows less is a frame that allows more. -/
theorem SameExcept.mono {regs regs' : List Reg} {parts parts' : List Part} {s t : State}
    (h : SameExcept regs parts s t) (hr : ∀ r, r ∈ regs → r ∈ regs') (hp : ∀ p, p ∈ parts → p ∈ parts') :
    SameExcept regs' parts' s t := by
  obtain ⟨a1, a2, a3, a4, a5, a6, a7, a8, a9, a10, a11, a12, a13, a14, a15, a16⟩ := h
  have n : ∀ {p}, p ∉ parts' → p ∉ parts := fun h hm => h (hp _ hm)
  exact ⟨fun r h => a1 r fun hm => h (hr r hm), fun h => a2 (n h), fun h => a3 (n h), fun h => a4 (n h),
    fun h => a5 (n h), fun h => a6 (n h), fun h => a7 (n h), fun h => a8 (n h), fun h => a9 (n h),
    fun h => a10 (n h), fun h => a11 (n h), fun h => a12 (n h), fun h => a13 (n h), fun h => a14 (n h),
    fun h => a15 (n h), fun h => a16 (n h)⟩

/-! ## The frame of each shared update -/

theorem SameExcept.writeV (s : State) (x : Reg) (b : Byte) : SameExcept [x] [] s (s.writeV x b) :=
  ⟨fun _ hr => State.readV_writeV_other _ _ fun e => hr (by simp [e]), by simp⟩

theorem SameExcept.writeI (s : State) (w : Word) : SameExcept [] [.i] s (s.writeI w) := by simp [SameExcept]

theorem SameExcept.jumpTo (s : State) (w : Word) : SameExcept [] [.pc] s (s.jumpTo w) := by simp [SameExcept]

theorem SameExcept.skipIf (s : State) (c : Bool) : SameExcept [] [.pc] s (s.skipIf c) := by
  cases c
  · exact SameExcept.refl _ _ s
  · exact SameExcept.jumpTo s (s.pc + 2)

theorem SameExcept.afterRnd (s : State) : SameExcept [] [.rnd] s s.afterRnd := by simp [SameExcept]

theorem SameExcept.afterKey (s : State) : SameExcept [] [.keys] s s.afterKey := by simp [SameExcept]

theorem SameExcept.afterRead (s : State) (a : Nat) : SameExcept [] [.stray] s (s.afterRead a) := by
  simp [SameExcept]

theorem SameExcept.afterReadWord (s : State) (a : Nat) : SameExcept [] [.stray] s (s.afterReadWord a) := by
  simp [SameExcept, State.afterReadWord]

theorem SameExcept.memWrite (s : State) (a : Nat) (b : Byte) :
    SameExcept [] [.mem, .changed] s (s.memWrite a b) := by
  simp [SameExcept]

/-! ## The frame of each instruction -/

/-- The parts of the state an instruction may change. -/
def touchedParts : Instr → List Part
  | .halt => [.run]
  | .cls => [.mem, .changed]
  | .ret => [.pc, .sp, .uflow, .stray]
  | .jp _ | .jpV0 _ | .seImm _ _ | .sneImm _ _ | .seReg _ _ | .sneReg _ _ => [.pc]
  | .call _ => [.pc, .sp, .mem, .changed]
  | .skp _ | .sknp _ => [.pc, .keys]
  | .ldI _ | .addI _ | .ldF _ | .ldB _ => [.i]
  | .rnd _ _ => [.rnd]
  | .drw _ _ _ => [.mem, .changed, .stray]
  | .ldVxK _ => [.keys, .hold]
  | .ldDtVx _ => [.dt]
  | .ldStVx _ => [.st]
  | .ldMemVx _ => [.mem, .changed]
  | .ldVxMem _ => [.stray]
  | .sys _ | .ldImm _ _ | .addImm _ _ | .ldReg _ _ | .orReg _ _ | .andReg _ _ | .xorReg _ _ | .addReg _ _
  | .subReg _ _ | .shr _ _ | .subn _ _ | .shl _ _ | .ldVxDt _ | .rsv5 _ _ _ | .rsv8 _ _ _ | .rsv9 _ _ _
  | .rsvE _ _ | .rsvF _ _ => []

/-- The registers an instruction may change: its destinations, and `VF` for the sprite draw. -/
def touchedRegs : Instr → List Reg
  | .drw _ _ _ => [15]
  | i => destinations i

/-- A frame read off the fields: no register file field, no memory field, and the parts named may differ. -/
theorem SameExcept.of_fields {regs : List Reg} {parts : List Part} {s t : State} (hv : t.v = s.v)
    (hpc : Part.pc ∉ parts → t.pc = s.pc) (hi : Part.i ∉ parts → t.i = s.i) (hsp : Part.sp ∉ parts → t.sp = s.sp)
    (hdt : Part.dt ∉ parts → t.dt = s.dt) (hst : Part.st ∉ parts → t.st = s.st)
    (hc : Part.changed ∉ parts → t.changed = s.changed) (hn : Part.icount ∉ parts → t.icount = s.icount)
    (hr : Part.run ∉ parts → t.run = s.run) (hu : Part.uflow ∉ parts → t.uflow = s.uflow)
    (hm : Part.mem ∉ parts → t.mem = s.mem) (hh : Part.hold ∉ parts → t.hold = s.hold)
    (hq : Part.redrawReq ∉ parts → t.redrawReq = s.redrawReq) (hrnd : Part.rnd ∉ parts → t.rnd = s.rnd)
    (hk : Part.keys ∉ parts → t.keys = s.keys) (hd : Part.stray ∉ parts → t.stray = s.stray) :
    SameExcept regs parts s t :=
  ⟨fun r _ => State.readV_congr hv r, hpc, hi, hsp, hdt, hst, hc, hn, hr, hu,
    fun h a => State.byteAt_congr (hm h) a, hh, hq, hrnd, hk, hd⟩

theorem SameExcept.awaitKey (s : State) (x : Reg) : SameExcept [x] [.keys, .hold] s (s.awaitKey x) := by
  rcases s.awaitKey_cases x with ⟨k, -, h⟩ | ⟨-, h⟩ <;> rw [h]
  · refine ⟨fun r hr => State.readV_writeV_other _ _ fun e => hr (by simp [e]), ?_⟩
    simp; exact fun a => rfl
  · apply SameExcept.of_fields <;> simp

theorem SameExcept.push (s : State) (w : Word) : SameExcept [] [.sp, .mem, .changed] s (s.push w) := by
  obtain ⟨m, c, h⟩ := s.push_fields w
  rw [h]; apply SameExcept.of_fields <;> simp

theorem SameExcept.zeroBytes (n a : Nat) (s : State) : SameExcept [] [.mem, .changed] s (State.zeroBytes n a s) := by
  obtain ⟨m, c, h⟩ := State.zeroBytes_eq n a s
  rw [h]; apply SameExcept.of_fields <;> simp

theorem SameExcept.storeRegs (base : Nat) (rs : List Reg) (s : State) :
    SameExcept [] [.mem, .changed] s (State.storeRegs base rs s) := by
  obtain ⟨m, c, h⟩ := State.storeRegs_eq base rs s
  rw [h]; apply SameExcept.of_fields <;> simp

theorem SameExcept.loadRegs (base : Nat) (rs : List Reg) (s : State) :
    SameExcept rs [.stray] s (State.loadRegs base rs s) := by
  obtain ⟨v, d, h⟩ := State.loadRegs_eq base rs s
  refine ⟨fun r hr => State.readV_loadRegs_other _ _ _ hr, ?_⟩
  rw [h]; simp; exact fun a => rfl

theorem SameExcept.markChanged (s : State) : SameExcept [] [.changed] s s.markChanged := by
  apply SameExcept.of_fields <;> simp [State.markChanged]

theorem SameExcept.blit (s : State) (x y : Reg) (n : Nibble) :
    SameExcept [] [.mem, .changed, .stray] s (s.blit x y n).2 := by
  obtain ⟨m, b, d, h⟩ := Blit.drawRows_eq (originX (s.readV x)) (originY (s.readV y)) s.i.toNat n.toNat (false, s)
  rw [State.blit, h]; apply SameExcept.of_fields <;> simp

/-- What an instruction may change: the registers and the parts it names, whatever the state. -/
theorem exec_frame {i : Instr} {s t : State} (h : exec i s = .next t) :
    SameExcept (touchedRegs i) (touchedParts i) s t := by
  cases i
  case halt => cases h; apply SameExcept.of_fields <;> simp [touchedParts]
  case cls =>
    rw [exec_cls] at h
    injection h with h
    rw [← h]
    exact ((SameExcept.zeroBytes 256 0xF00 s).trans (SameExcept.markChanged _)).mono (by simp)
      (by simp [touchedParts])
  case ret => rw [exec_ret_eq] at h; cases h; apply SameExcept.of_fields <;> simp [touchedParts]
  case call nnn =>
    cases h
    exact ((SameExcept.push s s.pc).trans (SameExcept.jumpTo _ _)).mono (by simp) (by simp [touchedParts])
  case rnd x kk =>
    cases h
    exact ((SameExcept.afterRnd s).trans (SameExcept.writeV _ x _)).mono (by simp [touchedRegs, destinations])
      (by simp [touchedParts])
  case skp x | sknp x =>
    cases h
    exact ((SameExcept.afterKey s).trans (SameExcept.skipIf _ _)).mono (by simp) (by simp [touchedParts])
  case drw x y n =>
    cases h
    exact (((SameExcept.blit s x y n).trans (SameExcept.writeV _ 15 _)).trans (SameExcept.markChanged _)).mono
      (by simp [touchedRegs]) (by simp [touchedParts])
  case ldVxK x => cases h; exact SameExcept.awaitKey s x
  case ldDtVx x | ldStVx x => cases h; apply SameExcept.of_fields <;> simp [touchedParts]
  case ldMemVx x => cases h; exact SameExcept.storeRegs _ _ s
  case ldVxMem x => cases h; exact SameExcept.loadRegs _ _ s
  case seImm x kk | sneImm x kk => cases h; exact SameExcept.skipIf s _
  case seReg x y | sneReg x y => cases h; exact SameExcept.skipIf s _
  case jp nnn | jpV0 nnn => cases h; exact SameExcept.jumpTo s _
  case ldI nnn => cases h; exact SameExcept.writeI s _
  case addI x | ldF x | ldB x => cases h; exact SameExcept.writeI s _
  all_goals cases h; first | exact SameExcept.refl _ _ s | exact SameExcept.writeV s _ _

end Sys2Proof
end

