-- ==== Sys2Proof/Laws/Draw.lean ====
section
/-! SUPPORT. The sprite draw in the terms of Safety: which mask it XORs into which byte, which bytes it reads as its
source, and when it reports a collision (45_display.md R171 to R176). -/

namespace Sys2Proof

open Sys2Proof.Machine

theorem spriteTarget_eq_drawAddr (s : State) (x y : Reg) (r : Nat) :
    spriteTarget (originX (s.readV x)) (originY (s.readV y)) r = drawAddr s x y r := by
  simp [spriteTarget, drawAddr, originX, originY, byteColumn]

theorem hasRightPart_iff_drawShift (s : State) (x : Reg) :
    hasRightPart (originX (s.readV x)) = true ↔ drawShift s x ≠ 0 := by
  simp [hasRightPart, drawShift, originX, bitOffset]

theorem bitOffset_eq_drawShift (s : State) (x : Reg) : bitOffset (originX (s.readV x)) = drawShift s x := by
  simp [drawShift, originX, bitOffset]

/-- The byte that row `r` of the sprite reads. -/
def sourceByte (s : State) (x y : Reg) (r : Nat) : Byte :=
  rowByte (originX (s.readV x)) (originY (s.readV y)) s.i.toNat (false, s) r

/-- The mask that rows 0 to `n - 1` XOR into the byte at an address. -/
def toggleMask (s : State) (x y : Reg) (n a : Nat) : Byte :=
  drawMask (originX (s.readV x)) (originY (s.readV y)) s.i.toNat (false, s) n a

/-- A draw XORs its mask into every byte of memory. -/
theorem byteAt_exec_drw {x y : Reg} {n : Nibble} {s t : State} (h : exec (.drw x y n) s = .next t) (a : Nat) :
    t.byteAt a = s.byteAt a ^^^ toggleMask s x y n.toNat a := by
  cases h
  show (s.blit x y n).2.byteAt a = _
  rw [State.blit, Blit.byteAt_drawRows]; rfl

/-- The mask at a byte no row has. -/
theorem toggleMask_untouched {s : State} {x y : Reg} {n a : Nat} (h : ¬ DrawTouches s x y n a) :
    toggleMask s x y n a = 0 := by
  apply drawMask_untouched
  intro r hr
  simp only [rowMask, spriteTarget_eq_drawAddr, hasRightPart_iff_drawShift]
  by_cases h4 : a < 4096
  · rw [if_pos h4, if_neg fun e => h ⟨h4, r, hr, .inl e⟩, if_neg fun e => h ⟨h4, r, hr, .inr e⟩]
  · rw [if_neg h4]

/-- The framebuffer is all a draw touches (45_display.md R175). -/
theorem toggleMask_outside_framebuffer (s : State) (x y : Reg) (n : Nat) {a : Nat} (h : a < 0xF00 ∨ 0x1000 ≤ a) :
    toggleMask s x y n a = 0 := by
  apply toggleMask_untouched
  rintro ⟨h4, r, -, h1⟩
  have : a = drawAddr s x y r ∨ a = drawAddr s x y r + 1 := h1.imp_right (·.2)
  simp only [drawAddr] at this; omega

theorem toggleMask_of_row (s : State) (x y : Reg) {n r a : Nat} (hr : r < n)
    (ha : a = drawAddr s x y r ∨ a = drawAddr s x y r + 1) :
    toggleMask s x y n a = rowMask (originX (s.readV x)) (originY (s.readV y)) (sourceByte s x y r) r a := by
  apply drawMask_of_row _ _ _ _ _ _ _ hr
  intro r' _ hne
  apply rowMask_other _ _ _ r r' a hne
  rw [spriteTarget_eq_drawAddr]; exact ha

/-- The mask at row `r`'s own byte is the left part of its source byte (45_display.md R173). -/
theorem toggleMask_left (s : State) (x y : Reg) {n r : Nat} (hr : r < n) (h4 : drawAddr s x y r < 4096) :
    toggleMask s x y n (drawAddr s x y r) = sourceByte s x y r >>> drawShift s x := by
  rw [toggleMask_of_row s x y hr (.inl rfl)]
  simp only [rowMask, spriteTarget_eq_drawAddr, bitOffset_eq_drawShift, leftPart, h4, if_true]

/-- The mask at the next byte is the right part of row `r`'s source byte, when there is one (45_display.md R173). -/
theorem toggleMask_right (s : State) (x y : Reg) {n r : Nat} (hr : r < n) (hs : drawShift s x ≠ 0)
    (h4 : drawAddr s x y r + 1 < 4096) :
    toggleMask s x y n (drawAddr s x y r + 1) = sourceByte s x y r <<< (8 - drawShift s x) := by
  rw [toggleMask_of_row s x y hr (.inr rfl)]
  simp [rowMask, spriteTarget_eq_drawAddr, bitOffset_eq_drawShift, rightPart, hasRightPart_iff_drawShift, h4, hs]

/-- A source byte outside memory is the next answer of the reads there (20_memory.md R57). -/
theorem sourceByte_outside (s : State) (x y : Reg) {r : Nat} (h : 4096 ≤ s.i.toNat + r) :
    sourceByte s x y r = nthAnswer Config.strayByte s.stray (s.i.toNat + r - max 4096 s.i.toNat) := by
  rw [sourceByte, rowByte, State.readByte_outside h, Draws.next_eq_nthAnswer, Blit.nthAnswer_drawRows]
  congr 1; omega

/-- A source byte in memory is the byte as the rows drawn before left it (45_display.md R176). -/
theorem sourceByte_inside (s : State) (x y : Reg) {r : Nat} (h : s.i.toNat + r < 4096) :
    sourceByte s x y r = s.byteAt (s.i.toNat + r) ^^^ toggleMask s x y r (s.i.toNat + r) := by
  rw [sourceByte, rowByte, State.readByte_inside h, Blit.byteAt_drawRows]; rfl

/-- A source byte below the framebuffer is the byte memory held before the draw. -/
theorem sourceByte_below (s : State) (x y : Reg) {r : Nat} (h : s.i.toNat + r < 0xF00) :
    sourceByte s x y r = s.byteAt (s.i.toNat + r) := by
  rw [sourceByte_inside s x y (by omega), toggleMask_outside_framebuffer s x y r (.inl h)]
  exact BitVec.xor_zero

/-- The mask depends on the coordinates modulo the screen and on the source bytes alone. -/
theorem toggleMask_congr {s t : State} {x y : Reg} {n : Nat} (a : Nat)
    (hx : (t.readV x).toNat % 64 = (s.readV x).toNat % 64) (hy : (t.readV y).toNat % 32 = (s.readV y).toNat % 32)
    (hr : ∀ r, r < n → sourceByte t x y r = sourceByte s x y r) : toggleMask t x y n a = toggleMask s x y n a := by
  have e1 : originX (t.readV x) = originX (s.readV x) := hx
  have e2 : originY (t.readV y) = originY (s.readV y) := hy
  induction n with
  | zero => rfl
  | succ n ih =>
    have hn := hr n (by omega)
    have := ih fun r h => hr r (by omega)
    simp only [toggleMask, drawMask, sourceByte] at this hn ⊢
    rw [this, hn, e1, e2]

/-- The rows of a draw report a collision exactly when some bit of memory goes from 1 to 0 in them: no byte has two
rows, so a bit that goes out in one row stays out. -/
theorem Blit.coll_drawRows (x0 y0 base n : Nat) (s : State) :
    (Blit.drawRows x0 y0 base n (false, s)).1 = true ↔ ∃ a k, (s.byteAt a).getLsbD k = true ∧
      ((Blit.drawRows x0 y0 base n (false, s)).2.byteAt a).getLsbD k = false := by
  induction n with
  | zero => simp [Blit.drawRows_zero]
  | succ n ih =>
    rw [Blit.drawRows_succ, Blit.coll_drawRow, ih]
    generalize hc : Blit.drawRows x0 y0 base n (false, s) = c
    have hb : ∀ a, c.2.byteAt a = s.byteAt a ^^^ drawMask x0 y0 base (false, s) n a := by
      intro a; rw [← hc, Blit.byteAt_drawRows]
    have one : ∀ a, drawMask x0 y0 base (false, s) n a = 0 ∨ rowMask x0 y0 (c.2.readByte (base + n)) n a = 0 := by
      intro a
      by_cases ht : a = spriteTarget x0 y0 n ∨ a = spriteTarget x0 y0 n + 1
      · exact .inl (drawMask_untouched _ _ _ _ _ _ fun r hr => rowMask_other _ _ _ n r a (by omega) ht)
      · rw [not_or] at ht; exact .inr (by simp [rowMask, ht.1, ht.2])
    simp only [Blit.byteAt_drawRow]
    constructor
    · rintro (⟨a, k, h1, h2⟩ | ⟨a, k, h1, h2⟩) <;> refine ⟨a, k, ?_, ?_⟩ <;> rcases one a with h | h
      · exact h1
      · exact h1
      · rw [hb, h] at h2; simp_all
      · rw [h]; simp_all
      · rw [hb, h] at h1; simpa using h1
      · rw [h] at h2; simp_all
      · exact h2
      · exact h2
    · rintro ⟨a, k, h1, h2⟩
      rcases one a with h | h
      · exact .inr ⟨a, k, by rw [hb, h]; simpa using h1, h2⟩
      · rw [h] at h2; exact .inl ⟨a, k, h1, by simpa using h2⟩

/-- What a draw leaves in `VF` (45_display.md R174). -/
theorem readV_vf_exec_drw {x y : Reg} {n : Nibble} {s t : State} (h : exec (.drw x y n) s = .next t) :
    t.readV 15 = collisionValue (s.blit x y n).1 := by
  cases h
  show (State.writeV _ 15 _).readV 15 = _
  rw [State.readV_writeV_same]

end Sys2Proof
end

