-- ==== Sys2Proof/Laws/PerInstr.lean ====
section
/-! SUPPORT. The family RoundTrip: for each instruction, decoding its word gives it back (30_encoding.md R84, R90). -/

namespace Sys2Proof.Laws.RoundTrip

/-- Decoding the word of a well-formed instruction gives the instruction back. -/
def Statement (i : Instr) : Prop := i.wellFormed = true → decodeWord (encodeWord i) = i

theorem halt : Statement .halt := fun _ => by decide
theorem cls : Statement .cls := fun _ => by decide
theorem ret : Statement .ret := fun _ => by decide

/-- A word of family 0 is one of the three fixed words exactly when its `nnn` is theirs. -/
theorem formA_zero_eq (nnn k : Addr12) : formA 0x0 nnn = formA 0x0 k ↔ nnn = k :=
  ⟨fun h => by simpa using congrArg nnnOf h, fun h => by rw [h]⟩

theorem sys (nnn : Addr12) : Statement (.sys nnn) := by
  intro h
  simp [Instr.wellFormed] at h
  have e0 : formA 0#4 nnn ≠ 0x0000#16 := fun e => h.1.1 ((formA_zero_eq nnn 0x000).1 e)
  have e1 : formA 0#4 nnn ≠ 0x00E0#16 := fun e => h.1.2 ((formA_zero_eq nnn 0x0E0).1 e)
  have e2 : formA 0#4 nnn ≠ 0x00EE#16 := fun e => h.2 ((formA_zero_eq nnn 0x0EE).1 e)
  simp [decodeWord, encodeWord, decodeFamily0, e0, e1, e2]

theorem jp (nnn : Addr12) : Statement (.jp nnn) := fun _ => by simp [decodeWord, encodeWord]
theorem call (nnn : Addr12) : Statement (.call nnn) := fun _ => by simp [decodeWord, encodeWord]
theorem seImm (x : Reg) (kk : Byte) : Statement (.seImm x kk) := fun _ => by simp [decodeWord, encodeWord]
theorem sneImm (x : Reg) (kk : Byte) : Statement (.sneImm x kk) := fun _ => by simp [decodeWord, encodeWord]
theorem seReg (x y : Reg) : Statement (.seReg x y) := fun _ => by simp [decodeWord, encodeWord, decodeFamily5]
theorem ldImm (x : Reg) (kk : Byte) : Statement (.ldImm x kk) := fun _ => by simp [decodeWord, encodeWord]
theorem addImm (x : Reg) (kk : Byte) : Statement (.addImm x kk) := fun _ => by simp [decodeWord, encodeWord]
theorem ldReg (x y : Reg) : Statement (.ldReg x y) := fun _ => by simp [decodeWord, encodeWord, decodeFamily8]
theorem orReg (x y : Reg) : Statement (.orReg x y) := fun _ => by simp [decodeWord, encodeWord, decodeFamily8]
theorem andReg (x y : Reg) : Statement (.andReg x y) := fun _ => by simp [decodeWord, encodeWord, decodeFamily8]
theorem xorReg (x y : Reg) : Statement (.xorReg x y) := fun _ => by simp [decodeWord, encodeWord, decodeFamily8]
theorem addReg (x y : Reg) : Statement (.addReg x y) := fun _ => by simp [decodeWord, encodeWord, decodeFamily8]
theorem subReg (x y : Reg) : Statement (.subReg x y) := fun _ => by simp [decodeWord, encodeWord, decodeFamily8]
theorem shr (x y : Reg) : Statement (.shr x y) := fun _ => by simp [decodeWord, encodeWord, decodeFamily8]
theorem subn (x y : Reg) : Statement (.subn x y) := fun _ => by simp [decodeWord, encodeWord, decodeFamily8]
theorem shl (x y : Reg) : Statement (.shl x y) := fun _ => by simp [decodeWord, encodeWord, decodeFamily8]
theorem sneReg (x y : Reg) : Statement (.sneReg x y) := fun _ => by simp [decodeWord, encodeWord, decodeFamily9]
theorem ldI (nnn : Addr12) : Statement (.ldI nnn) := fun _ => by simp [decodeWord, encodeWord]
theorem jpV0 (nnn : Addr12) : Statement (.jpV0 nnn) := fun _ => by simp [decodeWord, encodeWord]
theorem rnd (x : Reg) (kk : Byte) : Statement (.rnd x kk) := fun _ => by simp [decodeWord, encodeWord]
theorem drw (x y : Reg) (n : Nibble) : Statement (.drw x y n) := fun _ => by simp [decodeWord, encodeWord]
theorem skp (x : Reg) : Statement (.skp x) := fun _ => by simp [decodeWord, encodeWord, decodeFamilyE]
theorem sknp (x : Reg) : Statement (.sknp x) := fun _ => by simp [decodeWord, encodeWord, decodeFamilyE]
theorem ldVxDt (x : Reg) : Statement (.ldVxDt x) := fun _ => by simp [decodeWord, encodeWord, decodeFamilyF]
theorem ldVxK (x : Reg) : Statement (.ldVxK x) := fun _ => by simp [decodeWord, encodeWord, decodeFamilyF]
theorem ldDtVx (x : Reg) : Statement (.ldDtVx x) := fun _ => by simp [decodeWord, encodeWord, decodeFamilyF]
theorem ldStVx (x : Reg) : Statement (.ldStVx x) := fun _ => by simp [decodeWord, encodeWord, decodeFamilyF]
theorem addI (x : Reg) : Statement (.addI x) := fun _ => by simp [decodeWord, encodeWord, decodeFamilyF]
theorem ldF (x : Reg) : Statement (.ldF x) := fun _ => by simp [decodeWord, encodeWord, decodeFamilyF]
theorem ldB (x : Reg) : Statement (.ldB x) := fun _ => by simp [decodeWord, encodeWord, decodeFamilyF]
theorem ldMemVx (x : Reg) : Statement (.ldMemVx x) := fun _ => by simp [decodeWord, encodeWord, decodeFamilyF]
theorem ldVxMem (x : Reg) : Statement (.ldVxMem x) := fun _ => by simp [decodeWord, encodeWord, decodeFamilyF]

theorem rsv5 (x y : Reg) (sub : Nibble) : Statement (.rsv5 x y sub) := by
  intro h
  simp [Instr.wellFormed] at h
  simp [decodeWord, encodeWord, decodeFamily5, h]

theorem rsv8 (x y : Reg) (sub : Nibble) : Statement (.rsv8 x y sub) := by
  intro h
  have hs : ∀ n : Nibble, (!aluSubOpcodes.contains n) = true →
      n.toNat ∉ [0x0, 0x1, 0x2, 0x3, 0x4, 0x5, 0x6, 0x7, 0xE] := by decide
  have hn := hs sub h
  have hd : decodeFamily8 (formXYN 0x8 x y sub) = .rsv8 x y sub := by
    unfold decodeFamily8
    simp only [xOf_formXYN, yOf_formXYN, nOf_formXYN]
    split <;> simp_all
  simpa [decodeWord, encodeWord] using hd

theorem rsv9 (x y : Reg) (sub : Nibble) : Statement (.rsv9 x y sub) := by
  intro h
  simp [Instr.wellFormed] at h
  simp [decodeWord, encodeWord, decodeFamily9, h]

theorem rsvE (x : Reg) (sub : Byte) : Statement (.rsvE x sub) := by
  intro h
  simp [Instr.wellFormed, keySubOpcodes] at h
  simp [decodeWord, encodeWord, decodeFamilyE, h]

theorem rsvF (x : Reg) (sub : Byte) : Statement (.rsvF x sub) := by
  intro h
  simp [Instr.wellFormed, miscSubOpcodes] at h
  simp [decodeWord, encodeWord, decodeFamilyF, h]

end Sys2Proof.Laws.RoundTrip
end

