-- ==== Sys2Proof/Laws/RunLoop.lean ====
section
/-! SUPPORT. Everything one step can do, case by case (40_run_loop.md R100), and what the run loop's own updates do. -/

namespace Sys2Proof.Machine

/-! ## The run loop's updates -/

theorem State.beginStep_afterRead (s : State) (a : Nat) : s.beginStep.afterRead a = (s.afterRead a).beginStep := by
  rcases Nat.lt_or_ge a 4096 with h | h
  · rw [State.afterRead_inside h, State.afterRead_inside h]
  · rw [State.afterRead_outside h, State.afterRead_outside h]; rfl

@[simp] theorem State.beginStep_readByte (s : State) (a : Nat) : s.beginStep.readByte a = s.readByte a := rfl

@[simp] theorem State.beginStep_fetchWord (s : State) : s.beginStep.fetchWord = s.fetchWord := by
  simp only [State.fetchWord, State.readWord, State.beginStep_pc, State.beginStep_afterRead,
    State.beginStep_readByte]

theorem State.beginStep_afterFetch (s : State) : s.beginStep.afterFetch = { s.afterFetch with redrawReq := false } := by
  simp only [State.afterFetch, State.afterReadWord, State.beginStep_pc, State.beginStep_afterRead]
  rfl

/-- The fetch changes nothing but which stray answer is next. -/
theorem State.afterFetch_eq (s : State) : ∃ d, s.afterFetch = { s with stray := d } := s.afterReadWord_eq _

/-- A tick takes one from a timer with a floor of 0 (40_run_loop.md R107). -/
theorem toNat_timerDown (b : Byte) : (timerDown b).toNat = b.toNat - 1 := by
  revert b; decide

/-- Counting, and ticking when the count comes round to 0 (40_run_loop.md R105, R106). -/
theorem State.countAndTick_cases (s : State) :
    (s.icount = 7 ∧ s.countAndTick =
      { s with
        icount := 0, redrawReq := s.changed, changed := false, dt := timerDown s.dt, st := timerDown s.st }) ∨
    (s.icount ≠ 7 ∧ s.icount + 1 ≠ 0 ∧ s.countAndTick = { s with icount := s.icount + 1 }) := by
  have key : ∀ c : BitVec 3, c + 1 = 0 ↔ c = 7 := by decide
  by_cases h : s.icount = 7
  · refine .inl ⟨h, ?_⟩
    simp [State.countAndTick, State.count, State.tick, h]
  · refine .inr ⟨h, fun e => h ((key _).1 e), ?_⟩
    exact if_neg fun e => h ((key _).1 e)

/-- Counting and ticking leave everything else. -/
theorem SameExcept.countAndTick (s : State) :
    SameExcept [] [.icount, .redrawReq, .changed, .dt, .st] s s.countAndTick := by
  rcases s.countAndTick_cases with ⟨-, h⟩ | ⟨-, -, h⟩ <;> rw [h] <;> refine ⟨fun _ _ => rfl, ?_⟩ <;>
    simp <;> exact fun _ => rfl

theorem State.finish_held {s : State} (h : s.hold ≠ none) : s.finish = s := by
  simp [State.finish, Option.isSome_iff_ne_none, h]

theorem State.finish_free {s : State} (h : s.hold = none) : s.finish = s.countAndTick := by
  simp [State.finish, h]

/-! ## The step -/

theorem step_of_reset {s : State} (h : s.run = .reset) : step s = .next s.applyReset := by
  simp [step, runLoopStep, h]

theorem step_of_held {s : State} {x : Reg} (h : s.run = .running) (hx : s.hold = some x) :
    step s = .next (s.beginStep.awaitKey x).finish := by
  simp [step, runLoopStep, h, hx]

/-- A step from a fetching core is the instruction half of the step, on the fetched word. -/
theorem step_of_fetch {s : State} (h : AtFetch s) :
    step s = runDecoded exec (decodeWord s.fetchWord) { s.afterFetch with redrawReq := false } := by
  rw [← State.beginStep_afterFetch]
  simp [step, runLoopStep, h.1, h.2]

theorem runDecoded_halt (s : State) : runDecoded exec .halt s = .next { s with run := .halted } := rfl

theorem runDecoded_next {i : Instr} (h : i ≠ .halt) {s t : State} (he : exec i { s with pc := s.pc + 2 } = .next t) :
    runDecoded exec i s = .next t.finish := by
  have : runDecoded exec i s = finishAnswer (exec i s.advancePc) := by
    cases i <;> first | rfl | exact absurd rfl h
  rw [this]
  show finishAnswer (exec i { s with pc := s.pc + 2 }) = _
  rw [he]; rfl

/-- A step from a fetching core that does not halt: the instruction's answer, finished. -/
theorem step_of_fetch_next {s u : State} {i : Instr} (h : AtFetch s) (hd : decodeWord s.fetchWord = i)
    (hi : i ≠ .halt) (hu : exec i { s.afterFetch with pc := s.pc + 2, redrawReq := false } = .next u) :
    step s = .next u.finish := by
  rw [step_of_fetch h, hd]
  obtain ⟨d, hx⟩ := s.afterFetch_eq
  rw [hx] at hu ⊢
  exact runDecoded_next hi hu

/-- Finishing a step leaves what counting and ticking leave. -/
theorem SameExcept.finish (s : State) : SameExcept [] [.icount, .redrawReq, .changed, .dt, .st] s s.finish := by
  by_cases h : s.hold = none
  · rw [State.finish_free h]; exact SameExcept.countAndTick s
  · rw [State.finish_held h]; exact SameExcept.refl _ _ s

theorem State.finish_mem (s : State) : s.finish.mem = s.mem := by
  by_cases h : s.hold = none
  · rw [State.finish_free h]; rcases s.countAndTick_cases with ⟨-, e⟩ | ⟨-, -, e⟩ <;> rw [e]
  · rw [State.finish_held h]

/-! ## The canonical form of memory -/

/-- Every instruction keeps memory's canonical form. -/
theorem wf_exec {i : Instr} {s t : State} (h : exec i s = .next t) (hw : s.mem.wf = true) : t.mem.wf = true := by
  cases i
  case cls =>
    rw [exec_cls] at h; injection h with h
    rw [← h, State.markChanged_mem]; exact State.wf_zeroBytes hw _ _
  case call nnn => cases h; exact State.wf_push hw _
  case drw x y n => cases h; exact Blit.wf_drawRows (c := (false, s)) hw _ _ _ _
  case ldMemVx x => cases h; exact State.wf_storeRegs hw _ _
  case ret => rw [exec_ret_eq] at h; cases h; exact hw
  case ldVxMem x =>
    rw [exec_ldVxMem] at h; injection h with h
    obtain ⟨v, d, e⟩ := State.loadRegs_eq s.i.toNat (regsThrough x) s
    rw [← h, e]; exact hw
  case ldVxK x => cases h; rcases s.awaitKey_cases x with ⟨k, -, h⟩ | ⟨-, h⟩ <;> rw [h] <;> exact hw
  case seImm x kk | sneImm x kk => cases h; rw [State.skipIf_eq]; exact hw
  case seReg x y | sneReg x y => cases h; rw [State.skipIf_eq]; exact hw
  case skp x | sknp x => cases h; rw [State.skipIf_eq]; exact hw
  all_goals cases h; exact hw

end Sys2Proof.Machine
end

