-- ==== Sys2Proof/Tests/Slice0.lean ====
section
/-! SUPPORT. Small tests. Expected results come from the spec: the worked examples of its rules and the vectors of
95_test_vectors.md (their ids stand in the comments); words are written out from the encodings of 30_encoding.md R84.
Then, for every statement of Certificates/Slice0/Obligations.lean that has hypotheses, a concrete state that meets
them, at the boundary values of its clauses. -/

namespace Sys2Proof.Tests

open Sys2Proof.Machine

/-! ## Helpers -/

/-- The state after reset with some registers and bytes set, `changed` down. -/
def machine (regs : List (Reg × Byte)) (bytes : List (Nat × Byte)) : State :=
  let s := regs.foldl (fun s r => s.writeV r.1 r.2) State.reset
  { s with changed := false, mem := bytes.foldl (fun m c => Memory.write m c.1 c.2) [] }

/-- One step on an instruction word placed at `PC`. -/
def ran (w : Nat) (s : State) : Option State :=
  match step (s.withFetchWord 16 w) with
  | .next t => some t
  | _ => none

/-- One instruction's next state; the state itself where it has none. -/
def done (i : Instr) (s : State) : State :=
  match exec i s with
  | .next t => t
  | _ => s

/-- One step's next state; the state itself where it has none. -/
def stepped (s : State) : State :=
  match step s with
  | .next t => t
  | _ => s

/-! ## Ill-formed terms are refused -/

theorem test_illformed_sys_zero : Instr.wellFormed (.sys 0x000) = false := by decide
theorem test_illformed_sys_cls : Instr.wellFormed (.sys 0x0E0) = false := by decide
theorem test_illformed_sys_ret : Instr.wellFormed (.sys 0x0EE) = false := by decide
theorem test_illformed_rsv5 : Instr.wellFormed (.rsv5 1 2 0) = false := by decide
theorem test_illformed_rsv8 : Instr.wellFormed (.rsv8 1 2 4) = false := by decide
theorem test_illformed_rsv8_shl : Instr.wellFormed (.rsv8 1 2 0xE) = false := by decide
theorem test_illformed_rsv9 : Instr.wellFormed (.rsv9 1 2 0) = false := by decide
theorem test_illformed_rsvE : Instr.wellFormed (.rsvE 1 0x9E) = false := by decide
theorem test_illformed_rsvE_sknp : Instr.wellFormed (.rsvE 1 0xA1) = false := by decide
theorem test_illformed_rsvF : Instr.wellFormed (.rsvF 1 0x07) = false := by decide
theorem test_illformed_rsvF_load : Instr.wellFormed (.rsvF 1 0x65) = false := by decide
theorem test_wellformed_neighbours :
    ([.sys 0x001, .sys 0x0E1, .rsv5 1 2 1, .rsv8 1 2 8, .rsv8 1 2 0xF, .rsv9 1 2 0xF, .rsvE 1 0x9F, .rsvF 1 0x08].all
    Instr.wellFormed) = true := by decide

/-! ## Decoding: one word of every constructor, written from 30_encoding.md R84 -/

theorem test_decode_halt : decodeTableWord 16 0x0000 = some .halt := by decide
theorem test_decode_cls : decodeTableWord 16 0x00E0 = some .cls := by decide
theorem test_decode_ret : decodeTableWord 16 0x00EE = some .ret := by decide
theorem test_decode_sys : decodeTableWord 16 0x0123 = some (.sys 0x123) := by decide
theorem test_decode_jp : decodeTableWord 16 0x1ABC = some (.jp 0xABC) := by decide
theorem test_decode_call : decodeTableWord 16 0x2ABC = some (.call 0xABC) := by decide
theorem test_decode_seImm : decodeTableWord 16 0x3A5C = some (.seImm 0xA 0x5C) := by decide
theorem test_decode_sneImm : decodeTableWord 16 0x4A5C = some (.sneImm 0xA 0x5C) := by decide
theorem test_decode_seReg : decodeTableWord 16 0x5AB0 = some (.seReg 0xA 0xB) := by decide
theorem test_decode_ldImm : decodeTableWord 16 0x6A5C = some (.ldImm 0xA 0x5C) := by decide
theorem test_decode_addImm : decodeTableWord 16 0x7A5C = some (.addImm 0xA 0x5C) := by decide
theorem test_decode_ldReg : decodeTableWord 16 0x8AB0 = some (.ldReg 0xA 0xB) := by decide
theorem test_decode_orReg : decodeTableWord 16 0x8AB1 = some (.orReg 0xA 0xB) := by decide
theorem test_decode_andReg : decodeTableWord 16 0x8AB2 = some (.andReg 0xA 0xB) := by decide
theorem test_decode_xorReg : decodeTableWord 16 0x8AB3 = some (.xorReg 0xA 0xB) := by decide
theorem test_decode_addReg : decodeTableWord 16 0x8AB4 = some (.addReg 0xA 0xB) := by decide
theorem test_decode_subReg : decodeTableWord 16 0x8AB5 = some (.subReg 0xA 0xB) := by decide
theorem test_decode_shr : decodeTableWord 16 0x8AB6 = some (.shr 0xA 0xB) := by decide
theorem test_decode_subn : decodeTableWord 16 0x8AB7 = some (.subn 0xA 0xB) := by decide
theorem test_decode_shl : decodeTableWord 16 0x8ABE = some (.shl 0xA 0xB) := by decide
theorem test_decode_sneReg : decodeTableWord 16 0x9AB0 = some (.sneReg 0xA 0xB) := by decide
theorem test_decode_ldI : decodeTableWord 16 0xAABC = some (.ldI 0xABC) := by decide
theorem test_decode_jpV0 : decodeTableWord 16 0xBABC = some (.jpV0 0xABC) := by decide
theorem test_decode_rnd : decodeTableWord 16 0xCA5C = some (.rnd 0xA 0x5C) := by decide
theorem test_decode_drw : decodeTableWord 16 0xDAB5 = some (.drw 0xA 0xB 5) := by decide
theorem test_decode_skp : decodeTableWord 16 0xEA9E = some (.skp 0xA) := by decide
theorem test_decode_sknp : decodeTableWord 16 0xEAA1 = some (.sknp 0xA) := by decide
theorem test_decode_ldVxDt : decodeTableWord 16 0xFA07 = some (.ldVxDt 0xA) := by decide
theorem test_decode_ldVxK : decodeTableWord 16 0xFA0A = some (.ldVxK 0xA) := by decide
theorem test_decode_ldDtVx : decodeTableWord 16 0xFA15 = some (.ldDtVx 0xA) := by decide
theorem test_decode_ldStVx : decodeTableWord 16 0xFA18 = some (.ldStVx 0xA) := by decide
theorem test_decode_addI : decodeTableWord 16 0xFA1E = some (.addI 0xA) := by decide
theorem test_decode_ldF : decodeTableWord 16 0xFA29 = some (.ldF 0xA) := by decide
theorem test_decode_ldB : decodeTableWord 16 0xFA33 = some (.ldB 0xA) := by decide
theorem test_decode_ldMemVx : decodeTableWord 16 0xFA55 = some (.ldMemVx 0xA) := by decide
theorem test_decode_ldVxMem : decodeTableWord 16 0xFA65 = some (.ldVxMem 0xA) := by decide
theorem test_decode_rsv5 : decodeTableWord 16 0x5121 = some (.rsv5 1 2 1) := by decide
theorem test_decode_rsv8 : decodeTableWord 16 0x8128 = some (.rsv8 1 2 8) := by decide
theorem test_decode_rsv9 : decodeTableWord 16 0x912F = some (.rsv9 1 2 0xF) := by decide
theorem test_decode_rsvE : decodeTableWord 16 0xE29F = some (.rsvE 2 0x9F) := by decide
theorem test_decode_rsvF : decodeTableWord 16 0xF316 = some (.rsvF 3 0x16) := by decide
theorem test_decode_bits : decodeWord (0b1101#4 ++ 0b0001#4 ++ 0b0010#4 ++ 0b0101#4) = .drw 1 2 5 := by decide
theorem test_decode_truncated : decode [0x12] = .error .truncated := by decide

/-! ## The run loop (V-L) -/

theorem test_L1 :
    (ran 0x0000 State.reset).map (fun t => (t.run, t.pc, t.icount, t.changed, t.redrawReq)) = some (.halted, 0x200, 0, true, false) := by decide
theorem test_L2 :
    (ran 0x0001 State.reset).map (fun t => (t.run, t.pc, t.icount)) = some (.running, 0x202, 1) := by decide
theorem test_L3 :
    (ran 0x6000 { State.reset with icount := 7, dt := 1 }).map (fun t => (t.icount, t.redrawReq, t.changed, t.dt, t.st)) = some (0, true, false, 0, 0) := by decide
theorem test_L4 :
    (ran 0x6000 { machine [] [] with icount := 7, st := 3 }).map (fun t => (t.icount, t.redrawReq, t.changed, t.dt, t.st)) = some (0, false, false, 0, 2) := by decide
theorem test_L5 :
    (ran 0x6000 { State.reset with icount := 6, dt := 9 }).map (fun t => (t.icount, t.changed, t.dt)) = some (7, true, 9) := by decide
theorem test_L6 :
    (ran 0xF015 { machine [(0, 5)] [] with icount := 7 }).map (fun t => (t.dt, t.icount)) = some (4, 0) := by decide
theorem test_L7 :
    (ran 0xF107 { State.reset with icount := 7, dt := 9 }).map (fun t => (t.readV 1, t.dt)) = some (9, 8) := by decide
theorem test_L8 :
    (ran 0x6012 { State.reset with pc := 0x201 }).map (fun t => (t.readV 0, t.pc)) = some (0x12, 0x203) := by decide
theorem test_L9_zero :
    (stepped { machine [] [(0xFFF, 0)] with pc := 0xFFF, stray := { given := [0], taken := 0 } }).run = .halted := by decide
theorem test_L9_other :
    (stepped { machine [] [(0xFFF, 0)] with pc := 0xFFF, stray := { given := [1], taken := 0 } }).run = .running := by decide
theorem test_S8 :
    stepped (machine [] [(0x200, 0), (0x201, 0)]) = { machine [] [(0x200, 0), (0x201, 0)] with run := .halted } := by decide

/-! ## Control transfer (V-C), skips (V-S) -/

theorem test_C1 : (ran 0x1ABC State.reset).map (fun t => t.pc) = some 0xABC := by decide
theorem test_C3 :
    (ran 0x220E { machine [] [] with pc := 0x206 }).map (fun t => (t.byteAt 0xEA0, t.byteAt 0xEA1, t.sp, t.pc, t.changed)) = some (0x02, 0x08, 0xEA2, 0x20E, false) := by decide
theorem test_C9 :
    (ran 0x2300 { machine [] [] with sp := 0xF00 }).map (fun t => (t.pixel 6 0, t.pixel 14 0, t.sp, t.changed)) = some (true, true, 0xF02, true) := by decide
theorem test_C10 :
    (ran 0x2300 { machine [] [] with sp := 0xFFF }).map (fun t => (t.byteAt 0xFFF, t.sp, t.changed)) = some (0x02, 0x1001, true) := by decide
theorem test_C11 :
    (ran 0x2300 { machine [] [] with sp := 0x1000 }).map (fun t => (t.mem.length, t.sp, t.changed)) = some (2, 0x1002, false) := by decide
theorem test_C4 :
    (ran 0x00EE { machine [] [(0xEA0, 2), (0xEA1, 8)] with pc := 0x214, sp := 0xEA2 }).map (fun t => (t.pc, t.sp, t.uflow, t.byteAt 0xEA0)) = some (0x208, 0xEA0, false, 2) := by decide
theorem test_C6 :
    (ran 0x00EE { machine [] [(0xE9F, 3), (0xEA0, 0)] with sp := 0xEA1 }).map (fun t => (t.uflow, t.sp, t.pc)) = some (true, 0xE9F, 0x300) := by decide
theorem test_C7 :
    (ran 0x00EE { machine [] [] with sp := 0, stray := { given := [0xAB, 0xCD], taken := 0 } }).map (fun t => (t.uflow, t.sp, t.pc, t.stray.given)) = some (true, 0xFFFE, 0xABCD, []) := by decide
theorem test_C12 : (ran 0xB214 (machine [(0, 4)] [])).map (fun t => t.pc) = some 0x218 := by decide
theorem test_C13 : (ran 0xBFFF (machine [(0, 0xFF)] [])).map (fun t => t.pc) = some 0x10FE := by decide
theorem test_C14 :
    (ran 0x0123 State.reset).map (fun t => (t.pc, t.sp, t.changed, t.icount)) = some (0x202, 0xEA0, true, 1) := by decide
theorem test_S1 : (ran 0x3112 (machine [(1, 0x12), (2, 0)] [])).map (fun t => t.pc) = some 0x204 := by decide
theorem test_S2 : (ran 0x3112 (machine [(1, 0x13), (2, 0)] [])).map (fun t => t.pc) = some 0x202 := by decide
theorem test_S3_imm : (ran 0x4112 (machine [(1, 0x12), (2, 0)] [])).map (fun t => t.pc) = some 0x202 := by decide
theorem test_S4 : (ran 0x4112 (machine [(1, 0x13), (2, 0)] [])).map (fun t => t.pc) = some 0x204 := by decide
theorem test_S5_reg : (ran 0x5120 (machine [(1, 0x7), (2, 7)] [])).map (fun t => t.pc) = some 0x204 := by decide
theorem test_S6_reg : (ran 0x5120 (machine [(1, 0x7), (2, 8)] [])).map (fun t => t.pc) = some 0x202 := by decide
theorem test_S8_ne : (ran 0x9120 (machine [(1, 0x7), (2, 8)] [])).map (fun t => t.pc) = some 0x204 := by decide
theorem test_S9_eq : (ran 0x9120 (machine [(1, 0x7), (2, 7)] [])).map (fun t => t.pc) = some 0x202 := by decide
theorem test_S11 : (ran 0x5121 (machine [(1, 0x7), (2, 7)] [])).map (fun t => t.pc) = some 0x202 := by decide
theorem test_S12 : (ran 0x912F (machine [(1, 0x7), (2, 8)] [])).map (fun t => t.pc) = some 0x202 := by decide
theorem test_S14 :
    (ran 0x3112 { machine [(1, 0x12)] [] with icount := 7, dt := 1 }).map (fun t => (t.pc, t.icount, t.dt)) = some (0x204, 0, 0) := by decide

/-! ## Loads and the ALU (V-A); `VF` holds 0x55 before -/

theorem test_A1 : (ran 0x632A State.reset).map (fun t => t.readV 3) = some 0x2A := by decide
theorem test_A4 :
    (ran 0x7301 (machine [(3, 0xFF), (15, 0x55)] [])).map (fun t => (t.readV 3, t.readV 15)) = some (0, 0x55) := by decide
theorem test_A6 : (ran 0x8120 (machine [(2, 9)] [])).map (fun t => (t.readV 1, t.readV 2)) = some (9, 9) := by decide
theorem test_A7 :
    (ran 0x8121 (machine [(1, 0xf), (2, 0xf0), (15, 0x55)] [])).map (fun t => (t.readV 1, t.readV 2, t.readV 15)) = some (0xff, 0xf0, 0x55) := by decide
theorem test_A8 :
    (ran 0x8122 (machine [(1, 0x3c), (2, 0xf), (15, 0x55)] [])).map (fun t => (t.readV 1, t.readV 2, t.readV 15)) = some (0xc, 0xf, 0x55) := by decide
theorem test_A9 :
    (ran 0x8123 (machine [(1, 0xff), (2, 0xf), (15, 0x55)] [])).map (fun t => (t.readV 1, t.readV 2, t.readV 15)) = some (0xf0, 0xf, 0x55) := by decide
theorem test_A18 :
    (ran 0x8126 (machine [(1, 0x5), (2, 0xf0), (15, 0x55)] [])).map (fun t => (t.readV 1, t.readV 2, t.readV 15)) = some (0x2, 0xf0, 0x55) := by decide
theorem test_A22 :
    (ran 0x812E (machine [(1, 0x81), (2, 0x0), (15, 0x55)] [])).map (fun t => (t.readV 1, t.readV 2, t.readV 15)) = some (0x2, 0x0, 0x55) := by decide
theorem test_A11 :
    (ran 0x8014 (machine [(0, 0xff), (1, 0x1), (15, 0x55)] [])).map (fun t => (t.readV 0, t.readV 1, t.readV 15)) = some (0x0, 0x1, 0x55) := by decide
theorem test_A15 :
    (ran 0x8015 (machine [(0, 0x0), (1, 0x1), (15, 0x55)] [])).map (fun t => (t.readV 0, t.readV 1, t.readV 15)) = some (0xff, 0x1, 0x55) := by decide
theorem test_A16 :
    (ran 0x8015 (machine [(0, 0xa), (1, 0x5), (15, 0x55)] [])).map (fun t => (t.readV 0, t.readV 1, t.readV 15)) = some (0x5, 0x5, 0x55) := by decide
theorem test_A20 :
    (ran 0x8017 (machine [(0, 0x5), (1, 0xa), (15, 0x55)] [])).map (fun t => (t.readV 0, t.readV 1, t.readV 15)) = some (0x5, 0xa, 0x55) := by decide
theorem test_A21 :
    (ran 0x8017 (machine [(0, 0xa), (1, 0x5), (15, 0x55)] [])).map (fun t => (t.readV 0, t.readV 1, t.readV 15)) = some (0xfb, 0x5, 0x55) := by decide
theorem test_A13 :
    (ran 0x8F14 (machine [(1, 0x20), (15, 0x10)] [])).map (fun t => t.readV 15) = some 0x30 := by decide
theorem test_A19 : (ran 0x81F6 (machine [(1, 0xFF)] [])).map (fun t => t.readV 1) = some 0x7F := by decide
theorem test_A23 : (ran 0x812E (machine [(1, 0x80)] [])).map (fun t => t.readV 1) = some 0 := by decide
theorem test_A24 :
    (ran 0x8128 (machine [(1, 0x33), (2, 0x44)] [])).map (fun t => (t.readV 1, t.readV 2, t.pc)) = some (0x33, 0x44, 0x202) := by decide

/-! ## Index and random (V-I) -/

theorem test_I1 : (ran 0xA123 { State.reset with i := 0xFFFF }).map (fun t => t.i) = some 0x123 := by decide
theorem test_I2 :
    (ran 0xC30F { State.reset with rnd := { given := [0xB7], taken := 0 } }).map (fun t => (t.readV 3, t.rnd)) = some (7, { given := [], taken := 1 }) := by decide
theorem test_I4 :
    (ran 0xC3FF { State.reset with rnd := { given := [0xB7], taken := 0 } }).map (fun t => t.readV 3) = some 0xB7 := by decide
theorem test_I6 :
    (ran 0xF21E { machine [(2, 1)] [] with i := 0xFFF }).map (fun t => (t.i, t.readV 15)) = some (0x1000, 0) := by decide
theorem test_I7 : (ran 0xF21E { machine [(2, 2)] [] with i := 0xFFFF }).map (fun t => t.i) = some 1 := by decide
theorem test_I8 : (ran 0xF029 (machine [(0, 7)] [])).map (fun t => t.i) = some 0x23 := by decide
theorem test_I11 : (ran 0xF029 (machine [(0, 0xFF)] [])).map (fun t => t.i) = some 0x4FB := by decide
theorem test_I12 :
    (ran 0xF433 { machine [(4, 0x7B)] [(0x300, 0xAA)] with i := 0x300 }).map (fun t => (t.i, t.byteAt 0x300)) = some (0x123, 0xAA) := by decide
theorem test_I13 : (ran 0xF433 (machine [(4, 0xFF)] [])).map (fun t => t.i) = some 0x255 := by decide

/-! ## Display (V-D); the framebuffer is zero but for the bytes named -/

theorem test_D1 :
    (ran 0xD011 { machine [(0, 60), (1, 0), (15, 1)] [(0x300, 0xff), (0xf07, 0x0), (0xf08, 0x0)] with i := 0x300 }).map (fun t => (t.byteAt 0xf07, t.byteAt 0xf08, t.readV 15, t.changed)) = some (0xf, 0xf0, 0, true) := by decide
theorem test_D7 :
    (ran 0xD011 { machine [(0, 4), (1, 0), (15, 1)] [(0x300, 0xff), (0xf00, 0x0), (0xf01, 0x80)] with i := 0x300 }).map (fun t => (t.byteAt 0xf00, t.byteAt 0xf01, t.readV 15, t.changed)) = some (0xf, 0x70, 1, true) := by decide
theorem test_D4 :
    (ran 0xD011 { machine [(0, 70), (1, 35)] [(0x300, 0x81), (0xF18, 0), (0xF19, 0)] with i := 0x300 }).map (fun t =>
    (t.byteAt 0xF18, t.byteAt 0xF19, t.readV 15)) = some (0x02, 0x04, 0) := by decide
theorem test_D9 :
    (ran 0xD010 (machine [(15, 1)] [(0xF00, 0xFF)])).map (fun t => (t.byteAt 0xF00, t.readV 15, t.changed)) =
    some (0xFF, 0, true) := by decide
theorem test_D14 :
    (ran 0xDFF1 { machine [(15, 0x45)] [(0x300, 0x80), (0xF28, 0), (0xF29, 0)] with i := 0x300 }).map
    (fun t => (t.byteAt 0xF28, t.readV 15)) = some (0x04, 0) := by decide
theorem test_D15 :
    (ran 0x00E0 (machine [(15, 1)] [(0xEFF, 0x77), (0xFFF, 9)])).map (fun t =>
    (t.byteAt 0xF00, t.byteAt 0xFFF, t.byteAt 0xEFF, t.readV 15, t.changed)) = some (0, 0, 0x77, 1, true) := by decide +kernel

/-! ## Keypad (V-K), timers (V-T) -/

theorem test_K1 :
    (ran 0xE29E { machine [(2, 0x7)] [] with keys := { given := [some 7], taken := 0 } }).map (fun t => t.pc) = some 0x204 := by decide
theorem test_K2 :
    (ran 0xE29E { machine [(2, 0x7)] [] with keys := { given := [none], taken := 0 } }).map (fun t => t.pc) = some 0x202 := by decide
theorem test_K4 :
    (ran 0xE29E { machine [(2, 0x17)] [] with keys := { given := [some 7], taken := 0 } }).map (fun t => t.pc) = some 0x202 := by decide
theorem test_K5 :
    (ran 0xE2A1 { machine [(2, 0x7)] [] with keys := { given := [none], taken := 0 } }).map (fun t => t.pc) = some 0x202 := by decide
theorem test_K6 :
    (ran 0xE2A1 { machine [(2, 0x7)] [] with keys := { given := [some 3], taken := 0 } }).map (fun t => t.pc) = some 0x204 := by decide
theorem test_K8 :
    (ran 0xE2A1 { machine [(2, 0x17)] [] with keys := { given := [some 7], taken := 0 } }).map (fun t => t.pc) = some 0x204 := by decide
theorem test_K9 :
    (ran 0xF50A { machine [(5, 0xEE)] [] with keys := { given := [some 0xC], taken := 0 } }).map (fun t => (t.readV 5, t.pc, t.icount)) = some (0x0C, 0x202, 1) := by decide
theorem test_K10_held :
    (ran 0xF50A { State.reset with icount := 7, dt := 4, keys := { given := [none], taken := 0 } }).map (fun t => (t.hold, t.pc, t.icount, t.dt, t.redrawReq)) = some (some 5, 0x202, 7, 4, false) := by decide
theorem test_K11 :
    (ran 0xE29F { machine [(2, 7)] [] with keys := { given := [some 7], taken := 0 } }).map (fun t => (t.pc, t.keys.taken)) = some (0x202, 0) := by decide
theorem test_T1 :
    (ran 0xF307 { State.reset with dt := 0x2A }).map (fun t => (t.readV 3, t.dt)) = some (0x2A, 0x2A) := by decide
theorem test_T2 : (ran 0xF315 (machine [(3, 0x2A)] [])).map (fun t => (t.dt, t.st)) = some (0x2A, 0) := by decide
theorem test_T3 : (ran 0xF318 (machine [(3, 0x2A)] [])).map (fun t => (t.dt, t.st)) = some (0, 0x2A) := by decide
theorem test_T7 :
    (ran 0xF316 (machine [(3, 9)] [])).map (fun t => (t.dt, t.st, t.readV 3, t.pc)) = some (0, 0, 9, 0x202) := by decide

/-! ## Block transfers (V-B) -/

theorem test_B4 :
    (ran 0xF355 { machine [(0, 0xA1), (1, 0xA2), (2, 0xA3), (3, 0xA4)] [] with i := 0xFFE }).map (fun t =>
    (t.byteAt 0xFFE, t.byteAt 0xFFF, t.mem.length, t.changed, t.i)) = some (0xA1, 0xA2, 4, true, 0xFFE) := by decide
theorem test_B5 :
    (ran 0xF055 { machine [] [(0xF00, 0)] with i := 0xF00 }).map (fun t => (t.byteAt 0xF00, t.changed)) = some (0, true) := by decide
theorem test_B7 :
    (ran 0xF165 { machine [] [(0xFFF, 0x5A)] with i := 0xFFF, stray := { given := [0xC3], taken := 0 } }).map (fun t =>
    (t.readV 0, t.readV 1, t.stray.taken)) = some (0x5A, 0xC3, 1) := by decide
theorem test_B8 :
    (ran 0xF465 (machine [] [])).map (fun t => (t.readV 0, t.readV 1, t.readV 4, t.readV 5)) = some (0xF0, 0x90, 0xF0, 0) := by decide

/-! ## Witnesses: encoding -/

theorem test_witness_EncodedInstructionDecodesBack : Instr.wellFormed (.rsvF 0xF 0xFF) = true := by decide
theorem test_witness_EveryWordIsExactlyOneInstruction :
    Instr.wellFormed (.rsv8 1 2 0xF) = true ∧ encodeWord (.rsv8 1 2 0xF) = 0x812F := by decide
theorem test_witness_OnlyTheZeroWordHalts :
    AtFetch (machine [] [(0x200, 0), (0x201, 0)]) ∧ (machine [] [(0x200, 0), (0x201, 0)]).fetchWord = 0x0000 := ⟨⟨rfl, rfl⟩, by decide⟩
theorem test_witness_OnlyTheZeroWordHalts_other :
    AtFetch (machine [] [(0x200, 0), (0x201, 1)]) ∧ (machine [] [(0x200, 0), (0x201, 1)]).fetchWord ≠ 0x0000 := ⟨⟨rfl, rfl⟩, by decide⟩
theorem test_witness_ReservedWordsChangeNothing :
    ∀ w ∈ [0x0123, 0x5121, 0x8128, 0x912F, 0xE29F, 0xF316],
      (decodeWord (State.reset.withFetchWord 16 w).fetchWord).row ∈ [4, 37, 38, 39, 40, 41] ∧
      (State.reset.withFetchWord 16 w).run = .running ∧ (State.reset.withFetchWord 16 w).hold = none ∧
      (State.reset.withFetchWord 16 w).pc.toNat + 1 < 4096 := by decide

/-! ## Witnesses: the stack. SP just below, at and above each bound -/

theorem test_witness_CallPushesReturnAddress_inside :
    ((0xFFE : Word).toNat < 4096 ∧ (0xFFE : Word).toNat + 1 < 4096) ∧ (0xFFF : Word).toNat < 4096 ∧
    ¬ (0xFFF : Word).toNat + 1 < 4096 ∧ ¬ (0x1000 : Word).toNat < 4096 := by decide
theorem test_CallPushesReturnAddress_FFE :
    (ran 0x2300 { machine [] [] with sp := 0xFFE, pc := 0x304 }).map (fun t => (t.byteAt 0xFFE, t.byteAt 0xFFF)) = some (3, 6) := by decide
theorem test_CallPushesReturnAddress_EFE :
    (ran 0x2300 { machine [] [] with sp := 0xEFE }).map (fun t => (t.byteAt 0xEFE, t.changed, t.sp)) = some (2, false, 0xF00) := by decide
theorem test_CallPushesReturnAddress_EFF :
    (ran 0x2300 { machine [] [] with sp := 0xEFF }).map (fun t => (t.byteAt 0xF00, t.changed)) = some (2, true) := by decide
theorem test_witness_ReturnPopsProgramCounter :
    ((0x1000 - 2 : Word).toNat + 1 < 4096) ∧ (0x1001 - 2 : Word).toNat = 4095 ∧ 4096 ≤ (0x1002 - 2 : Word).toNat ∧
    (0xEA1 : Word).toNat < 0xEA2 ∧ ¬ (0xEA2 : Word).toNat < 0xEA2 := by decide
theorem test_ReturnPopsProgramCounter_4095 :
    (ran 0x00EE { machine [] [(0xFFF, 2)] with sp := 0x1001, stray := { given := [4, 5], taken := 0 } }).map (fun t => (t.pc, t.stray.taken)) = some (0x204, 1) := by decide
theorem test_ReturnPopsProgramCounter_4096 :
    (ran 0x00EE { machine [] [] with sp := 0x1002, stray := { given := [4, 5], taken := 0 } }).map (fun t => (t.pc, t.uflow)) = some (0x405, false) := by decide
theorem test_witness_ReturnAfterCallRestoresPcAndSp :
    ∃ t, State.reset.sp.toNat + 1 < 4096 ∧ 0xEA0 ≤ State.reset.sp.toNat ∧ exec (.call 0x300) State.reset = .next t := ⟨_, by decide, by decide, rfl⟩
theorem test_witness_CallInRoomLeavesFramebufferAlone :
    StackInRoom { State.reset with sp := 0xEFE } ∧ (0xEFE : Word).toNat ≤ 0xEFE := ⟨⟨by decide, by decide⟩, by decide⟩

/-! ## Witnesses: the sprite draw -/

-- rows whose source lies outside memory, in memory, in a byte an earlier row drew
theorem test_witness_DrawXorsEachRow_outside : 4096 ≤ (0xFFF : Word).toNat + 1 ∧ (0xFFF : Word).toNat + 0 < 4096 := by decide
theorem test_witness_DrawXorsEachRow_untouched :
    ¬ DrawTouches (machine [(0, 0), (1, 0)] []) 0 1 0 0x300 := fun h => by
  obtain ⟨-, r, hr, -⟩ := h; exact absurd hr (Nat.not_lt_zero r)
theorem test_witness_DrawXorsEachRow_touched : DrawTouches { machine [] [] with i := 0xEFF } 0 1 1 (0xEFF + 1) :=
  ⟨by decide, 0, by decide, .inl (by decide)⟩
theorem test_DrawXorsEachRow_touched :
    (ran 0xD012 { machine [] [(0xEFF, 0x0F), (0xF00, 0xF3), (0xF08, 0)] with i := 0xEFF }).map (fun t =>
      (t.byteAt 0xF00, t.byteAt 0xF08)) = some (0xFC, 0xFC) := by decide
-- the last byte of the framebuffer as a left part and as a right part
theorem test_witness_DrawXorsEachRow_left : drawAddr (machine [(0, 56), (1, 31)] []) 0 1 0 = 0xFFF ∧
    ¬ drawAddr (machine [(0, 56), (1, 31)] []) 0 1 1 < 4096 := by decide
theorem test_witness_DrawXorsEachRow_right : drawShift (machine [(0, 49), (1, 31)] []) 0 ≠ 0 ∧
    drawAddr (machine [(0, 49), (1, 31)] []) 0 1 0 + 1 = 0xFFF := by decide
theorem test_witness_DrawXorsEachRow_dropped : drawShift (machine [(0, 62), (1, 31)] []) 0 ≠ 0 ∧
    ¬ drawAddr (machine [(0, 62), (1, 31)] []) 0 1 0 + 1 < 4096 := by decide
theorem test_witness_CollisionFlagIffABitTurnsOff :
    ∃ t, exec (.drw 0 1 1) { machine [] [(0x300, 0xFF), (0xF00, 0x80)] with i := 0x300 } = .next t ∧
      t.readV 15 = 1 := ⟨_, rfl, by decide⟩
/-- Glyph 7 under a machine with a known framebuffer byte. -/
def glyph7 : State := { machine [(0, 13), (1, 3)] [(0xF19, 0), (0xF1A, 0)] with i := 0x23 }
theorem test_witness_DrawingTwiceRestoresMemory : ∃ t u, glyph7.i.toNat + (5 : Nibble).toNat ≤ 0xF00 ∧
    exec (.drw 0 1 5) glyph7 = .next t ∧ (t.readV 0).toNat % 64 = (glyph7.readV 0).toNat % 64 ∧
    (t.readV 1).toNat % 32 = (glyph7.readV 1).toNat % 32 ∧ exec (.drw 0 1 5) t = .next u :=
  ⟨done (.drw 0 1 5) glyph7, _, by decide, rfl, by decide, by decide, rfl⟩
theorem test_witness_DrawOriginWrapsModuloScreen :
    ∃ t t', (machine [(0, 6), (1, 3)] []).mem = (machine [(0, 70), (1, 35)] []).mem ∧
      ((machine [(0, 6), (1, 3)] []).readV 0).toNat % 64 = ((machine [(0, 70), (1, 35)] []).readV 0).toNat % 64 ∧
      ((machine [(0, 6), (1, 3)] []).readV 1).toNat % 32 = ((machine [(0, 70), (1, 35)] []).readV 1).toNat % 32 ∧
      exec (.drw 0 1 5) (machine [(0, 70), (1, 35)] []) = .next t ∧
      exec (.drw 0 1 5) (machine [(0, 6), (1, 3)] []) = .next t' :=
  ⟨_, _, rfl, by decide, by decide, rfl, rfl⟩
-- x0 = 60, y0 = 30, two rows: the last pixel of a row, the first spilled one, a row past the bottom, an outer pixel
theorem test_witness_DrawTogglesSpritePixels :
    (machine [(0, 60), (1, 30)] []).i.toNat + (2 : Nibble).toNat ≤ 0xF00 ∧
    60 = ((machine [(0, 60), (1, 30)] []).readV 0).toNat % 64 ∧ 30 = ((machine [(0, 60), (1, 30)] []).readV 1).toNat % 32 ∧
    (∃ t, exec (.drw 0 1 2) (machine [(0, 60), (1, 30)] []) = .next t) ∧
    (60 + 3 < 64 ∧ 30 + 1 < 32) ∧ (64 ≤ 60 + 4 ∧ 30 + 0 + 1 < 32) ∧ ¬ 30 + 1 + 1 < 32 :=
  ⟨by decide, by decide, by decide, ⟨_, rfl⟩, by decide, by decide, by decide⟩
theorem test_witness_DrawTogglesSpritePixels_other : ∀ r k, r < (2 : Nibble).toNat → k < 8 →
    ¬ (59 = 60 + k ∧ 30 = 30 + r) ∧ ¬ (59 + 64 = 60 + k ∧ 30 = 30 + r + 1) := by
  intro r k _ _; omega
theorem test_DrawTogglesSpritePixels_spill :
    (ran 0xD012 { machine [(0, 60), (1, 30)] [(0x300, 0xFF), (0x301, 0xFF), (0xFF7, 0), (0xFF8, 0), (0xFFF, 0)] with
      i := 0x300 }).map (fun t => (t.pixel 63 30, t.pixel 0 31, t.pixel 3 31, t.pixel 63 31, t.pixel 59 30)) =
    some (true, true, true, true, false) := by decide

/-! ## Witnesses: keys, timers, block transfers, memory -/

/-- A machine to which the host has laid down key answers. -/
def withKeys (ks : List (Option Nibble)) : State := { State.reset with keys := { given := ks, taken := 0 } }
theorem test_witness_KeySkips_key : nthAnswer Config.keyPort (withKeys [some 7]).keys 0 = some 7 := rfl
theorem test_witness_KeySkips_none : nthAnswer Config.keyPort (withKeys [none]).keys 0 = none := rfl
theorem test_witness_KeyWaitCompletesOnAKey :
    (withKeys [some 0xC]).hold = none ∧ nthAnswer Config.keyPort (withKeys [some 0xC]).keys 0 = some 0xC := ⟨rfl, rfl⟩
theorem test_witness_KeyWaitHoldsTheCoreUnchanged :
    { withKeys [none] with hold := some 5 }.run = .running ∧ { withKeys [none] with hold := some 5 }.hold = some 5 ∧
      nthAnswer Config.keyPort { withKeys [none] with hold := some 5 }.keys 0 = none := ⟨rfl, rfl, rfl⟩
theorem test_witness_KeyEndsTheHold :
    { withKeys [some 0] with hold := some 5 }.run = .running ∧ { withKeys [some 0] with hold := some 5 }.hold = some 5 ∧
      nthAnswer Config.keyPort { withKeys [some 0] with hold := some 5 }.keys 0 = some 0 := ⟨rfl, rfl, rfl⟩
-- V-K10, after the hold
theorem test_K10_done : (step { withKeys [some 0] with
      hold := some 5, pc := 0x202, icount := 7, dt := 4, v := State.reset.v.set 5 9 }) =
    .next { withKeys [] with
      keys := { given := [], taken := 1 }, pc := 0x202, icount := 0, dt := 3, changed := false, redrawReq := true } := rfl
theorem test_witness_TimersCountDown_tick : ∃ t, AtFetch ({ State.reset with icount := 7 }.withFetchWord 16 0x6000) ∧
    step ({ State.reset with icount := 7 }.withFetchWord 16 0x6000) = .next t ∧ t.run = .running ∧ t.hold = none ∧
    (∀ x, decodeWord ({ State.reset with icount := 7 }.withFetchWord 16 0x6000).fetchWord ≠ .ldDtVx x) :=
  ⟨_, ⟨rfl, rfl⟩, rfl, rfl, rfl, by decide⟩
theorem test_witness_TimersCountDown_no_tick : ∃ t, AtFetch (State.reset.withFetchWord 16 0x6000) ∧
    step (State.reset.withFetchWord 16 0x6000) = .next t ∧ t.run = .running ∧ t.hold = none ∧
    (∀ x, decodeWord (State.reset.withFetchWord 16 0x6000).fetchWord ≠ .ldStVx x) :=
  ⟨_, ⟨rfl, rfl⟩, rfl, rfl, rfl, by decide⟩
theorem test_witness_BlockStoreWritesRegisters :
    ((15 : Reg) ≤ 15 ∧ (0xFF0 : Word).toNat + 15 < 4096) ∧ ¬ (0xFF1 : Word).toNat + 15 < 4096 := by decide
theorem test_witness_BlockLoadReadsRegisters : ((0 : Reg) ≤ 1 ∧ (0xFFF : Word).toNat + 0 < 4096) ∧
    ((1 : Reg) ≤ 1 ∧ 4096 ≤ (0xFFF : Word).toNat + 1) ∧ (1 : Reg) < 2 ∧ (0xFFE : Word).toNat + 1 < 4096 := by decide
/-- A machine whose block store reaches the last byte of memory. -/
def storing : State := { machine [(0, 0x60), (1, 0x12)] [] with i := 0xFFE, pc := 0xFFE }
theorem test_witness_BlockLoadAfterStoreRestoresRegisters : ∃ t u, DataInMemory storing ((1 : Reg).val + 1) ∧
    exec (.ldMemVx 1) storing = .next t ∧ { t with v := State.reset.v }.mem = t.mem ∧
    { t with v := State.reset.v }.i = storing.i ∧ exec (.ldVxMem 1) { t with v := State.reset.v } = .next u :=
  ⟨done (.ldMemVx 1) storing, _, by unfold DataInMemory; decide, rfl, rfl, rfl, rfl⟩
theorem test_witness_FetchSeesABlockStoreAtOnce : ∃ t, (0 : Reg) < 1 ∧ storing.i.toNat + (0 : Reg).val + 1 < 4096 ∧
    exec (.ldMemVx 1) storing = .next t ∧ t.pc.toNat = storing.i.toNat + (0 : Reg).val ∧ t.fetchWord = 0x6012 :=
  ⟨done (.ldMemVx 1) storing, by decide, by decide, rfl, by decide, by decide⟩
theorem test_witness_OutsideMemoryReads : 4096 ≤ 4096 ∧ 4096 ≤ 65536 := by decide

/-! ## Witnesses: the run loop, the host, reset -/

/-- A machine about to fetch 0x632A at 0x200. -/
def fetching : State := State.reset.withFetchWord 16 0x632A
theorem test_witness_StepRunsTheDecodedInstruction : AtFetch fetching ∧ PcInMemory fetching ∧
    decode [fetching.byteAt fetching.pc.toNat, fetching.byteAt (fetching.pc.toNat + 1)] = .ok (.ldImm 3 0x2A, []) ∧
    (Instr.ldImm 3 0x2A) ≠ .halt := ⟨⟨rfl, rfl⟩, by unfold PcInMemory; decide, rfl, by decide⟩
theorem test_witness_StepRunsTheDecodedInstruction_outside :
    AtFetch ({ State.reset with pc := 0xFFF }.withFetchWord 16 0x632A) ∧
    decodeWord (({ State.reset with pc := 0xFFF }.withFetchWord 16 0x632A).readWord 0xFFF) = .ldImm 3 0x2A :=
  ⟨⟨rfl, rfl⟩, by decide⟩
theorem test_witness_HaltingFetch_outside :
    AtFetch ({ State.reset with pc := 0xFFFF }.withFetchWord 16 0) ∧
    ({ State.reset with pc := 0xFFFF }.withFetchWord 16 0).fetchWord = 0x0000 := ⟨⟨rfl, rfl⟩, by decide⟩
theorem test_witness_OnlyAHaltedMachineMakesNoStep :
    { State.reset with run := .halted }.run = .halted ∧ State.reset.run ≠ .halted := by decide
theorem test_witness_ResetGivesEveryRegisterItsValue :
    step { State.reset with run := .halted, sp := 0, uflow := true }.assertReset = .next State.reset := rfl
theorem test_witness_RegistersReadZeroAfterReset : ∃ t, step (machine [(3, 9)] []).assertReset = .next t := ⟨_, rfl⟩
theorem test_witness_EighthInstructionTicks : ∃ u t, AtFetch { fetching with icount := 7 } ∧
    decodeWord { fetching with icount := 7 }.fetchWord ≠ .halt ∧
    exec (decodeWord { fetching with icount := 7 }.fetchWord)
      { { fetching with icount := 7 }.afterFetch with pc := 0x202, redrawReq := false } = .next u ∧ u.hold = none ∧
    step { fetching with icount := 7 } = .next t ∧ t.icount = 0 ∧ t.redrawReq = true :=
  ⟨_, _, ⟨rfl, rfl⟩, by decide, rfl, rfl, rfl, by decide, by decide⟩
theorem test_witness_EighthInstructionTicks_no_tick : ∃ t, step fetching = .next t ∧ t.icount ≠ 0 := ⟨_, rfl, by decide⟩
theorem test_witness_ClearThenTickPresentsTheZeroFrame :
    AtFetch ({ State.reset with icount := 7 }.withFetchWord 16 0x00E0) ∧
    ({ State.reset with icount := 7 }.withFetchWord 16 0x00E0).fetchWord = 0x00E0 ∧
    ({ State.reset with icount := 7 }.withFetchWord 16 0x00E0).icount = 7 := ⟨⟨rfl, rfl⟩, by decide, rfl⟩
theorem test_witness_HostLoads : (State.loadImage 0xFFE [1, 2] { State.reset with run := .halted }).map (·.mem) =
    some [(0xFFE, 1), (0xFFF, 2)] := by decide
theorem test_witness_HostLoads_running : State.loadImage 0x200 [1] State.reset = none := by decide
theorem test_witness_HostLoads_too_long :
    4096 < 0xFFF + [1, 2].length ∧ State.loadImage 0xFFF [1, 2] { State.reset with run := .halted } = none := by decide
-- a program placed by the host runs from its first word after the reset that follows the load
theorem test_load_then_reset :
    (State.loadProgram [0x632A, 0x0000] { State.reset with run := .halted }).map
      (fun s => (stepped (stepped s.assertReset)).readV 3) = some 0x2A := by decide

/-! ## Witnesses: the invariant and the whole-machine rules -/

theorem test_witness_EveryStepKeepsTheInvariant : ∃ t, Inv fetching ∧ step fetching = .next t :=
  ⟨_, ⟨by decide, by decide, by decide⟩, rfl⟩
theorem test_witness_OnlyTheDrawWritesVFAsAFlag :
    (done (.ldImm 3 0x2A) State.reset).readV 3 ≠ State.reset.readV 3 ∧
    (done (.drw 0 1 1) { machine [(15, 7)] [(0x300, 0), (0xF00, 0)] with i := 0x300 }).readV 15 ≠ (machine [(15, 7)] []).readV 15 := by
  decide
theorem test_witness_OnlyFourInstructionsWriteMemory :
    (done .cls (machine [] [(0xFFF, 9)])).byteAt 0xFFF ≠ (machine [] [(0xFFF, 9)]).byteAt 0xFFF ∧
    (done (.call 0x300) (machine [] [(0xEA0, 9)])).byteAt 0xEA0 ≠ (machine [] [(0xEA0, 9)]).byteAt 0xEA0 ∧
    (done (.drw 0 1 1) (machine [] [(0xF00, 9)])).byteAt 0xF00 ≠ (machine [] [(0xF00, 9)]).byteAt 0xF00 ∧
    (done (.ldMemVx 0) (machine [] [(0, 9)])).byteAt 0 ≠ (machine [] [(0, 9)]).byteAt 0 := by decide +kernel
theorem test_witness_IndexAndStackPointerHaveFewWriters :
    (done (.ldI 0x300) State.reset).i ≠ State.reset.i ∧ (done (.call 0x300) State.reset).sp ≠ State.reset.sp ∧
    (done .ret State.reset).sp ≠ State.reset.sp := by decide
theorem test_witness_OnlyControlTransferMovesPc :
    (done (.jp 0x300) State.reset).pc ≠ State.reset.pc ∧ (done (.seImm 0 0) State.reset).pc ≠ State.reset.pc := by decide
theorem test_witness_UnderflowDiagnosticIsSticky_sets : ∃ t, State.reset.uflow = false ∧
    step (State.reset.withFetchWord 16 0x00EE) = .next t ∧ t.uflow = true := ⟨_, rfl, rfl, by decide⟩
theorem test_witness_UnderflowDiagnosticIsSticky_keeps :
    ∃ t, step { fetching with uflow := true } = .next t ∧ t.uflow = true := ⟨_, rfl, by decide⟩
theorem test_witness_FramebufferWritesSetChanged :
    (done (.ldMemVx 0) { machine [] [(0xF00, 9)] with i := 0xF00 }).byteAt 0xF00 ≠ (machine [] [(0xF00, 9)]).byteAt 0xF00 ∧
    State.reset.changed = true := by decide
theorem test_witness_OnlyTheirInstructionsQueryTheHost :
    (done (.rnd 0 0xFF) State.reset).rnd ≠ State.reset.rnd ∧ (done (.skp 0) (withKeys [none])).keys ≠ (withKeys [none]).keys := by
  decide

end Sys2Proof.Tests
end

section
/-! SUPPORT. The decoder turned round: a word is the encoding of what it decodes to (30_encoding.md R84, R90). -/

namespace Sys2Proof

theorem formA_of_fields {op : Word} {f : Nibble} (hf : famOf op = f) : formA f (nnnOf op) = op := by
  rw [← hf, formA_fields]

theorem formXK_of_fields {op : Word} {f : Nibble} {k : Byte} (hf : famOf op = f) (hk : kkOf op = k) :
    formXK f (xOf op) k = op := by
  rw [← hf, ← hk, formXK_fields]

theorem formXYN_of_fields {op : Word} {f n : Nibble} (hf : famOf op = f) (hn : nOf op = n) :
    formXYN f (xOf op) (yOf op) n = op := by
  rw [← hf, ← hn, formXYN_fields]

theorem encodeWord_decodeFamily0 {op : Word} (hf : famOf op = 0x0) : encodeWord (decodeFamily0 op) = op := by
  unfold decodeFamily0
  split_ifs with h0 h1 h2
  · exact h0.symm
  · exact h1.symm
  · exact h2.symm
  · exact formA_of_fields hf

theorem encodeWord_decodeFamily5 {op : Word} (hf : famOf op = 0x5) : encodeWord (decodeFamily5 op) = op := by
  unfold decodeFamily5
  split_ifs with hn
  · exact formXYN_of_fields hf (by simpa using hn)
  · exact formXYN_of_fields hf rfl

theorem encodeWord_decodeFamily8 {op : Word} (hf : famOf op = 0x8) : encodeWord (decodeFamily8 op) = op := by
  unfold decodeFamily8
  split
  case h_10 => exact formXYN_of_fields hf rfl
  all_goals exact formXYN_of_fields hf (BitVec.eq_of_toNat_eq ‹_›)

theorem encodeWord_decodeFamily9 {op : Word} (hf : famOf op = 0x9) : encodeWord (decodeFamily9 op) = op := by
  unfold decodeFamily9
  split_ifs with hn
  · exact formXYN_of_fields hf (by simpa using hn)
  · exact formXYN_of_fields hf rfl

theorem encodeWord_decodeFamilyE {op : Word} (hf : famOf op = 0xE) : encodeWord (decodeFamilyE op) = op := by
  unfold decodeFamilyE
  split_ifs
  case neg => exact formXK_of_fields hf rfl
  all_goals exact formXK_of_fields hf ‹_›

theorem encodeWord_decodeFamilyF {op : Word} (hf : famOf op = 0xF) : encodeWord (decodeFamilyF op) = op := by
  unfold decodeFamilyF
  split_ifs
  case neg => exact formXK_of_fields hf rfl
  all_goals exact formXK_of_fields hf ‹_›

/-- Every word is the encoding of the instruction it decodes to (30_encoding.md R84, R90). -/
theorem encodeWord_decodeWord (op : Word) : encodeWord (decodeWord op) = op := by
  have fam : ∀ {k : Nibble}, (famOf op).toNat = k.toNat → famOf op = k := BitVec.eq_of_toNat_eq
  unfold decodeWord
  split <;> rename_i h
  case h_1 => exact encodeWord_decodeFamily0 (fam h)
  case h_6 => exact encodeWord_decodeFamily5 (fam h)
  case h_9 => exact encodeWord_decodeFamily8 (fam h)
  case h_10 => exact encodeWord_decodeFamily9 (fam h)
  case h_15 => exact encodeWord_decodeFamilyE (fam h)
  case h_16 =>
    have := (famOf op).isLt
    exact encodeWord_decodeFamilyF (fam (by simp_all; omega))
  case h_2 | h_3 | h_11 | h_12 => exact formA_of_fields (fam h)
  case h_4 | h_5 | h_7 | h_8 | h_13 => exact formXK_of_fields (fam h) rfl
  case h_14 => exact formXYN_of_fields (fam h) rfl

end Sys2Proof
end

section
/-! SUPPORT. What every proof about a step or an instruction starts from: that each one answers a next state, all one
step can do, and what a frame says of one part of the state. -/

namespace Sys2Proof.Machine

/-! ## Answers -/

/-- Every instruction answers a next state from every state (40_run_loop.md R111). -/
theorem exec_total (i : Instr) (s : State) : ∃ t, exec i s = .next t := by
  cases i <;> exact ⟨_, rfl⟩

theorem step_of_halted {s : State} (h : s.run = .halted) : step s = .fault .halted := by
  simp [step, runLoopStep, h]

/-- A step from a fetching core that fetches the sentinel: `run` alone, beside the fetch and the pulse. -/
theorem step_of_fetch_halt {s : State} (h : AtFetch s) (hd : decodeWord s.fetchWord = .halt) :
    step s = .next { s.afterFetch with run := .halted, redrawReq := false } := by
  rw [step_of_fetch h, hd, runDecoded_halt]

/-- All a step of a running core can do (40_run_loop.md R100): sample the key port for the `Fx0A` that holds the core,
halt at the sentinel, or finish the fetched instruction. -/
theorem step_of_running {s : State} (hr : s.run = .running) :
    (∃ x, s.hold = some x ∧ step s = .next (s.beginStep.awaitKey x).finish) ∨
    (s.hold = none ∧ decodeWord s.fetchWord = .halt ∧
      step s = .next { s.afterFetch with run := .halted, redrawReq := false }) ∨
    (s.hold = none ∧ decodeWord s.fetchWord ≠ .halt ∧
      ∃ u, exec (decodeWord s.fetchWord) { s.afterFetch with pc := s.pc + 2, redrawReq := false } = .next u ∧
        step s = .next u.finish) := by
  cases hh : s.hold with
  | some x => exact .inl ⟨x, rfl, step_of_held hr hh⟩
  | none =>
    by_cases hd : decodeWord s.fetchWord = .halt
    · exact .inr (.inl ⟨rfl, hd, step_of_fetch_halt ⟨hr, hh⟩ hd⟩)
    · obtain ⟨u, hu⟩ := exec_total (decodeWord s.fetchWord)
        { s.afterFetch with pc := s.pc + 2, redrawReq := false }
      exact .inr (.inr ⟨rfl, hd, u, hu, step_of_fetch_next ⟨hr, hh⟩ rfl hd hu⟩)

/-- Every core but a halted one makes its step. -/
theorem step_total {s : State} (h : s.run ≠ .halted) : ∃ t, step s = .next t := by
  cases hr : s.run with
  | halted => exact absurd hr h
  | reset => exact ⟨_, step_of_reset hr⟩
  | running =>
    obtain ⟨x, -, he⟩ | ⟨-, -, he⟩ | ⟨-, -, u, -, he⟩ := step_of_running hr <;> exact ⟨_, he⟩

end Sys2Proof.Machine

namespace Sys2Proof

open Sys2Proof.Machine

/-! ## One part of a frame -/

section
variable {regs : List Reg} {parts : List Part} {s t : State}

theorem SameExcept.readV_eq (h : SameExcept regs parts s t) {r : Reg} (hr : r ∉ regs) : t.readV r = s.readV r :=
  h.1 r hr

theorem SameExcept.pc_eq (h : SameExcept regs parts s t) (hp : Part.pc ∉ parts) : t.pc = s.pc := by
  obtain ⟨-, hpc, -⟩ := h; exact hpc hp

theorem SameExcept.i_eq (h : SameExcept regs parts s t) (hp : Part.i ∉ parts) : t.i = s.i := by
  obtain ⟨-, -, hi, -⟩ := h; exact hi hp

theorem SameExcept.sp_eq (h : SameExcept regs parts s t) (hp : Part.sp ∉ parts) : t.sp = s.sp := by
  obtain ⟨-, -, -, hsp, -⟩ := h; exact hsp hp

theorem SameExcept.dt_eq (h : SameExcept regs parts s t) (hp : Part.dt ∉ parts) : t.dt = s.dt := by
  obtain ⟨-, -, -, -, hdt, -⟩ := h; exact hdt hp

theorem SameExcept.st_eq (h : SameExcept regs parts s t) (hp : Part.st ∉ parts) : t.st = s.st := by
  obtain ⟨-, -, -, -, -, hst, -⟩ := h; exact hst hp

theorem SameExcept.changed_eq (h : SameExcept regs parts s t) (hp : Part.changed ∉ parts) :
    t.changed = s.changed := by
  obtain ⟨-, -, -, -, -, -, hc, -⟩ := h; exact hc hp

theorem SameExcept.icount_eq (h : SameExcept regs parts s t) (hp : Part.icount ∉ parts) : t.icount = s.icount := by
  obtain ⟨-, -, -, -, -, -, -, hn, -⟩ := h; exact hn hp

theorem SameExcept.uflow_eq (h : SameExcept regs parts s t) (hp : Part.uflow ∉ parts) : t.uflow = s.uflow := by
  obtain ⟨-, -, -, -, -, -, -, -, -, hu, -⟩ := h; exact hu hp

theorem SameExcept.byteAt_eq (h : SameExcept regs parts s t) (hp : Part.mem ∉ parts) (a : Nat) :
    t.byteAt a = s.byteAt a := by
  obtain ⟨-, -, -, -, -, -, -, -, -, -, hm, -⟩ := h; exact hm hp a

theorem SameExcept.hold_eq (h : SameExcept regs parts s t) (hp : Part.hold ∉ parts) : t.hold = s.hold := by
  obtain ⟨-, -, -, -, -, -, -, -, -, -, -, hh, -⟩ := h; exact hh hp

end

/-! ## Which instructions may change a part -/

variable {i : Instr}

theorem mem_touchedRegs {r : Reg} (h : r ∈ touchedRegs i) :
    r ∈ destinations i ∨ (r = 15 ∧ ∃ x y n, i = .drw x y n) := by
  cases i
  case drw x y n => exact .inr ⟨by simpa [touchedRegs] using h, x, y, n, rfl⟩
  all_goals exact .inl h

theorem i_mem_touchedParts (h : Part.i ∈ touchedParts i) :
    (∃ nnn, i = .ldI nnn) ∨ ∃ x, i = .addI x ∨ i = .ldF x ∨ i = .ldB x := by
  cases i <;> simp [touchedParts] at h ⊢

theorem sp_mem_touchedParts (h : Part.sp ∈ touchedParts i) : (∃ nnn, i = .call nnn) ∨ i = .ret := by
  cases i <;> simp [touchedParts] at h ⊢

theorem uflow_mem_touchedParts (h : Part.uflow ∈ touchedParts i) : i = .ret := by
  cases i <;> simp [touchedParts] at h ⊢

theorem dt_mem_touchedParts (h : Part.dt ∈ touchedParts i) : ∃ x, i = .ldDtVx x := by
  cases i <;> simp [touchedParts] at h ⊢

theorem st_mem_touchedParts (h : Part.st ∈ touchedParts i) : ∃ x, i = .ldStVx x := by
  cases i <;> simp [touchedParts] at h ⊢

theorem icount_not_mem_touchedParts (i : Instr) : Part.icount ∉ touchedParts i := by
  cases i <;> simp [touchedParts]

/-- Whatever may change `changed` or memory is one of the four writers of memory (20_memory.md R51). -/
theorem mem_or_changed_mem_touchedParts (h : Part.mem ∈ touchedParts i ∨ Part.changed ∈ touchedParts i) :
    i = .cls ∨ (∃ nnn, i = .call nnn) ∨ (∃ x y n, i = .drw x y n) ∨ ∃ x, i = .ldMemVx x := by
  cases i <;> simp [touchedParts] at h ⊢

/-- `PC` is touched by the four transfers and the six skips alone (10_state.md R26). -/
theorem pc_mem_touchedParts (h : Part.pc ∈ touchedParts i) :
    (i = .ret ∨ ∃ nnn, i = .jp nnn ∨ i = .call nnn ∨ i = .jpV0 nnn) ∨
    ((∃ x kk, i = .seImm x kk ∨ i = .sneImm x kk) ∨ (∃ x y, i = .seReg x y ∨ i = .sneReg x y) ∨
      ∃ x, i = .skp x ∨ i = .sknp x) := by
  cases i <;> simp [touchedParts] at h ⊢

end Sys2Proof
end

section
/-! SUPPORT. What a push, a block store, a return, a skip, the fetch and the tick do to the parts that the statements of
10_state.md speak of. -/

namespace Sys2Proof.Machine

/-! ## The stack, skips and the framebuffer -/

theorem State.sp_push (s : State) (w : Word) : (s.push w).sp = s.sp + 2 := by
  rw [State.push_eq]

/-- Below 0xEFF a push reaches no byte of the framebuffer (10_state.md R30). -/
theorem State.push_in_room {s : State} (h : s.sp.toNat ≤ 0xEFE) (w : Word) :
    (s.push w).changed = s.changed ∧ ∀ a, 0xF00 ≤ a → (s.push w).byteAt a = s.byteAt a := by
  constructor
  · rw [State.changed_push, decide_eq_false (by omega), decide_eq_false (by omega), Bool.or_false, Bool.or_false]
  · intro a ha
    rw [State.byteAt_push, if_neg (by omega), if_neg (by omega)]

theorem State.pc_skipIf_of_ne {s : State} {c : Bool} (h : (s.skipIf c).pc ≠ s.pc) : (s.skipIf c).pc = s.pc + 2 := by
  cases c with
  | false => exact absurd rfl h
  | true => rfl

/-- A push that alters a framebuffer byte sets `changed` (10_state.md R32). -/
theorem State.changed_of_push_alters {s : State} {w : Word} {a : Nat} (ha : 0xF00 ≤ a)
    (h : (s.push w).byteAt a ≠ s.byteAt a) : (s.push w).changed = true := by
  have hin : (s.sp.toNat = a ∨ s.sp.toNat + 1 = a) ∧ a < 4096 := by
    by_contra hout
    exact h (by rw [State.byteAt_push, if_neg (by omega), if_neg (by omega)])
  simp only [State.changed_push, Bool.or_eq_true, decide_eq_true_eq]
  omega

/-- A block store that alters a framebuffer byte sets `changed` (10_state.md R32). -/
theorem State.changed_of_storeRegs_alters {base : Nat} {rs : List Reg} {s : State} {a : Nat} (ha : 0xF00 ≤ a)
    (h : (State.storeRegs base rs s).byteAt a ≠ s.byteAt a) : (State.storeRegs base rs s).changed = true := by
  obtain ⟨-, hsame⟩ := State.byteAt_storeRegs base rs s a
  obtain ⟨⟨r, hr, he⟩, h4⟩ : (∃ r ∈ rs, base + r.val = a) ∧ a < 4096 := by
    by_contra hout
    rw [not_and_or, Nat.not_lt] at hout
    exact h (hsame (hout.imp_left fun hn r hr he => hn ⟨r, hr, he⟩))
  exact (State.changed_storeRegs base rs s).2 (.inr ⟨r, hr, by omega, by omega⟩)

theorem changed_of_exec_cls {s t : State} (h : exec .cls s = .next t) : t.changed = true := by
  rw [exec_cls] at h
  injection h with h
  rw [← h, State.markChanged_changed]

theorem changed_of_exec_drw {x y : Reg} {n : Nibble} {s t : State} (h : exec (.drw x y n) s = .next t) :
    t.changed = true := by
  rw [exec_drw] at h
  injection h with h
  rw [← h, State.markChanged_changed]

/-! ## Reset and the tick -/

theorem State.readV_reset (r : Reg) : State.reset.readV r = 0 := by
  simp [State.readV, State.reset, Vector.get_eq_getElem]

/-- Counting takes one from `DT` when a tick is due, with a floor of 0 (40_run_loop.md R107). -/
theorem State.toNat_dt_countAndTick (s : State) :
    s.countAndTick.dt.toNat = if s.icount = 7 then s.dt.toNat - 1 else s.dt.toNat := by
  rcases s.countAndTick_cases with ⟨h7, h⟩ | ⟨h7, -, h⟩
  · rw [h, if_pos h7]; exact toNat_timerDown s.dt
  · rw [h, if_neg h7]

/-- Counting takes one from `ST` when a tick is due, with a floor of 0 (40_run_loop.md R107). -/
theorem State.toNat_st_countAndTick (s : State) :
    s.countAndTick.st.toNat = if s.icount = 7 then s.st.toNat - 1 else s.st.toNat := by
  rcases s.countAndTick_cases with ⟨h7, h⟩ | ⟨h7, -, h⟩
  · rw [h, if_pos h7]; exact toNat_timerDown s.st
  · rw [h, if_neg h7]

end Sys2Proof.Machine

namespace Sys2Proof

open Sys2Proof.Machine

/-! ## The diagnostic -/

/-- An instruction leaves `uflow` or is a return that underflows and sets it (41_control.md R121). -/
theorem exec_uflow_cases {i : Instr} {s t : State} (h : exec i s = .next t) :
    t.uflow = s.uflow ∨ (i = .ret ∧ s.sp.toNat < 0xEA2 ∧ t.uflow = true) := by
  by_cases hp : Part.uflow ∈ touchedParts i
  · obtain rfl := uflow_mem_touchedParts hp
    rw [exec_ret_eq] at h
    injection h with h
    rw [← h]
    by_cases hs : s.sp.toNat < 0xEA2
    · exact .inr ⟨rfl, hs, by simp [hs]⟩
    · exact .inl (by simp [hs])
  · exact .inl ((exec_frame h).uflow_eq hp)

/-! ## Around the instruction -/

/-- What the fetch and the advance leave of the state that the instruction runs on (40_run_loop.md R101, R102). -/
theorem SameExcept.fetched (s : State) :
    SameExcept [] [.pc, .redrawReq, .stray] s { s.afterFetch with pc := s.pc + 2, redrawReq := false } := by
  obtain ⟨d, h⟩ := s.afterFetch_eq
  rw [h]
  apply SameExcept.of_fields <;> simp

/-- A step leaves `uflow` or fetches a return that underflows and sets it (60_exceptions.md R212). -/
theorem step_uflow_cases {s t : State} (hr : s.run = .running) (h : step s = .next t) :
    t.uflow = s.uflow ∨ (s.hold = none ∧ s.fetchWord = 0x00EE ∧ s.sp.toNat < 0xEA2 ∧ t.uflow = true) := by
  have fin : ∀ u : State, u.finish.uflow = u.uflow := fun u => (SameExcept.finish u).uflow_eq (by simp)
  obtain ⟨x, -, he⟩ | ⟨-, -, he⟩ | ⟨hh, -, u, hu, he⟩ := step_of_running hr <;> cases h.symm.trans he
  · exact .inl ((fin _).trans ((SameExcept.awaitKey s.beginStep x).uflow_eq (by simp)))
  · exact .inl ((SameExcept.afterReadWord s s.pc.toNat).uflow_eq (by simp))
  · have hsp := (SameExcept.fetched s).sp_eq (by simp)
    have huf := (SameExcept.fetched s).uflow_eq (by simp)
    rw [fin]
    obtain hsame | ⟨hret, hlow, hset⟩ := exec_uflow_cases hu
    · exact .inl (hsame.trans huf)
    · refine .inr ⟨hh, ?_, hsp ▸ hlow, hset⟩
      rw [← encodeWord_decodeWord s.fetchWord, hret]; rfl

end Sys2Proof
end

section
/-! PROOFS. The statements of the family 10_state.md. -/

namespace Sys2Proof

open Sys2Proof.Machine

/-- Settles O12: both bytes pushed lie below 0xF00, and `SP` rises to 0xF00 at most. -/
theorem callInRoomLeavesFramebufferAlone : Obligations.CallInRoomLeavesFramebufferAlone := by
  intro nnn s hroom hsp
  obtain ⟨hlow, -⟩ := hroom
  obtain ⟨hc, hb⟩ := State.push_in_room hsp s.pc
  have hsum : (s.sp + 2).toNat = s.sp.toNat + 2 := by
    rw [BitVec.toNat_add]; exact Nat.mod_eq_of_lt (by simp; omega)
  refine ⟨_, exec_call nnn s, ?_, hc, hb⟩
  rw [StackInRoom, State.jumpTo_sp, State.sp_push, hsum]
  omega

/-- Settles O36: an instruction but the loads leaves the timers and the count, and what follows it is one count. -/
theorem timersCountDownAndFloorAtZero : Obligations.TimersCountDownAndFloorAtZero := by
  intro s t hf hstep hrun hhold
  obtain ⟨hrunning, hfree⟩ := hf
  obtain ⟨x, hheld, -⟩ | ⟨-, -, he⟩ | ⟨-, -, u, hu, he⟩ := step_of_running hrunning
  · rw [hfree] at hheld; cases hheld
  · cases hstep.symm.trans he; cases hrun
  · cases hstep.symm.trans he
    rw [(SameExcept.finish u).hold_eq (by simp)] at hhold
    have hn : u.icount = s.icount :=
      ((exec_frame hu).icount_eq (icount_not_mem_touchedParts _)).trans ((SameExcept.fetched s).icount_eq (by simp))
    rw [State.finish_free hhold, State.toNat_dt_countAndTick, State.toNat_st_countAndTick, hn]
    constructor
    · intro hno
      rw [(exec_frame hu).dt_eq fun hm => (dt_mem_touchedParts hm).elim hno, (SameExcept.fetched s).dt_eq (by simp)]
    · intro hno
      rw [(exec_frame hu).st_eq fun hm => (st_mem_touchedParts hm).elim hno, (SameExcept.fetched s).st_eq (by simp)]

/-- Settles O53, from the frame of each instruction. -/
theorem onlyTheDrawWritesVFAsAFlag : Obligations.OnlyTheDrawWritesVFAsAFlag := by
  intro i s t r h hne
  exact mem_touchedRegs (not_imp_comm.1 (exec_frame h).readV_eq hne)

/-- Settles O55: the frames name the writers, and the call's push and the return say by how much `SP` moves. -/
theorem indexAndStackPointerHaveFewWriters : Obligations.IndexAndStackPointerHaveFewWriters := by
  intro i s t h
  refine ⟨fun hne => i_mem_touchedParts (not_imp_comm.1 (exec_frame h).i_eq hne), fun hne => ?_⟩
  obtain ⟨nnn, rfl⟩ | rfl := sp_mem_touchedParts (not_imp_comm.1 (exec_frame h).sp_eq hne)
  · rw [exec_call] at h
    injection h with h
    exact .inl ⟨⟨nnn, rfl⟩, by rw [← h, State.jumpTo_sp, State.sp_push]⟩
  · rw [exec_ret_eq] at h
    injection h with h
    exact .inr ⟨rfl, by rw [← h]⟩

/-- Settles O56: the frames name the transfers and the skips, and a skip that moves `PC` adds 2. -/
theorem onlyControlTransferMovesPc : Obligations.OnlyControlTransferMovesPc := by
  intro i s t h hne
  obtain hjump | hskip := pc_mem_touchedParts (not_imp_comm.1 (exec_frame h).pc_eq hne)
  · exact .inl hjump
  · refine .inr ⟨?_, hskip⟩
    obtain ⟨x, kk, rfl | rfl⟩ | ⟨x, y, rfl | rfl⟩ | ⟨x, rfl | rfl⟩ := hskip <;> cases h <;>
      exact State.pc_skipIf_of_ne hne

/-- Settles O57, from all a step can do to `uflow`. -/
theorem underflowDiagnosticIsSticky : Obligations.UnderflowDiagnosticIsSticky := by
  intro s t hrun hstep
  obtain he | ⟨hh, hw, hsp, hset⟩ := step_uflow_cases hrun hstep
  · exact ⟨fun h => he.trans h, fun h0 h1 => by rw [he, h0] at h1; cases h1⟩
  · exact ⟨fun _ => hset, fun _ _ => ⟨hh, hw, hsp⟩⟩

/-- Settles O58: the clear and the draw set `changed` always, the push and the block store where they write there, and
no other instruction touches memory or `changed`. -/
theorem framebufferWritesSetChanged : Obligations.FramebufferWritesSetChanged := by
  intro i s t h
  by_cases hp : Part.mem ∈ touchedParts i ∨ Part.changed ∈ touchedParts i
  · obtain rfl | ⟨nnn, rfl⟩ | ⟨x, y, n, rfl⟩ | ⟨x, rfl⟩ := mem_or_changed_mem_touchedParts hp
    · exact ⟨fun _ => changed_of_exec_cls h, fun _ => changed_of_exec_cls h⟩
    · cases h
      refine ⟨fun ⟨a, ha, hne⟩ => State.changed_of_push_alters ha hne, fun hc => ?_⟩
      rw [State.jumpTo_changed, State.changed_push, hc, Bool.true_or, Bool.true_or]
    · exact ⟨fun _ => changed_of_exec_drw h, fun _ => changed_of_exec_drw h⟩
    · cases h
      exact ⟨fun ⟨a, ha, hne⟩ => State.changed_of_storeRegs_alters ha hne,
        fun hc => (State.changed_storeRegs _ _ s).2 (.inl hc)⟩
  · obtain ⟨hmem, hchanged⟩ := not_or.1 hp
    exact ⟨fun ⟨a, _, hne⟩ => absurd ((exec_frame h).byteAt_eq hmem a) hne,
      fun hc => ((exec_frame h).changed_eq hchanged).trans hc⟩

/-- Settles O44: `Halted` answers the fault, and each case of the other two run states answers a next state. -/
theorem onlyAHaltedMachineMakesNoStep : Obligations.OnlyAHaltedMachineMakesNoStep :=
  fun _ => ⟨step_of_halted, step_total⟩

/-- Settles O46: the step out of `Reset` is the reset state with memory and the environment's answers put back. -/
theorem resetGivesEveryRegisterItsValue : Obligations.ResetGivesEveryRegisterItsValue := by
  intro s
  refine ⟨_, step_of_reset (s := s.assertReset) rfl, ?_⟩
  rintro u (rfl | rfl) <;>
    exact ⟨State.readV_reset, rfl, rfl, rfl, rfl, rfl, rfl, rfl, rfl, rfl, rfl,
      fun h a => State.byteAt_congr (congrArg State.mem h) a⟩

/-- Settles O47: the step out of `Reset` has the reset state's register file. -/
theorem registersReadZeroAfterReset : Obligations.RegistersReadZeroAfterReset := by
  refine ⟨State.readV_reset, fun s t h r => ?_⟩
  rw [step_of_reset (s := s.assertReset) rfl] at h
  injection h with h
  rw [← h]
  exact State.readV_reset r

end Sys2Proof
end

section
/-! SUPPORT. What reads, writes, the host's loads and the sprite draw do to memory, and what a step keeps of the parts
that the invariant speaks of (20_memory.md R51 to R64). -/

namespace Sys2Proof

open Sys2Proof.Machine

/-! ## The run state and the pulse of a frame -/

section
variable {regs : List Reg} {parts : List Part} {s t : State}

theorem SameExcept.run_eq (h : SameExcept regs parts s t) (hp : Part.run ∉ parts) : t.run = s.run := by
  obtain ⟨-, -, -, -, -, -, -, -, hr, -⟩ := h; exact hr hp

theorem SameExcept.redrawReq_eq (h : SameExcept regs parts s t) (hp : Part.redrawReq ∉ parts) :
    t.redrawReq = s.redrawReq := by
  obtain ⟨-, -, -, -, -, -, -, -, -, -, -, -, hq, -⟩ := h; exact hq hp

end

/-- Only the sentinel moves the run state (40_run_loop.md R103). -/
theorem run_mem_touchedParts {i : Instr} (h : Part.run ∈ touchedParts i) : i = .halt := by
  cases i <;> simp [touchedParts] at h ⊢

/-- No instruction raises or drops the redraw pulse: the run loop does (40_run_loop.md R106). -/
theorem redrawReq_not_mem_touchedParts (i : Instr) : Part.redrawReq ∉ touchedParts i := by
  cases i <;> simp [touchedParts]

/-! ## The invariant -/

/-- With the pulse down and no core held, canonical memory is all the invariant asks. -/
theorem Inv.of_quiet {s : State} (hw : s.mem.wf = true) (hh : s.hold = none) (hq : s.redrawReq = false) : Inv s :=
  ⟨hw, fun h => absurd hh h, fun h => by rw [hq] at h; cases h⟩

/-- Finishing an instruction of a running core, begun with the pulse down, gives the invariant: a held core is left as
it is, and of a free one only a tick raises the pulse, clearing `changed` with it (40_run_loop.md R106). -/
theorem Inv.finish {u : State} (hw : u.mem.wf = true) (hr : u.run = .running) (hq : u.redrawReq = false) :
    Inv u.finish := by
  by_cases hh : u.hold = none
  · rw [State.finish_free hh]
    rcases u.countAndTick_cases with ⟨-, h⟩ | ⟨-, -, h⟩ <;> rw [h]
    · exact ⟨hw, fun hne => absurd hh hne, fun _ => ⟨rfl, rfl, hh⟩⟩
    · exact Inv.of_quiet hw hh hq
  · rw [State.finish_held hh]
    exact ⟨hw, fun _ => hr, fun h => by rw [hq] at h; cases h⟩

/-- A step out of `Reset` gives the invariant: the wait is cancelled and the pulse is down. -/
theorem Inv.applyReset {s : State} (hw : s.mem.wf = true) : Inv s.applyReset := Inv.of_quiet hw rfl rfl

/-- A step of a running core gives the invariant from canonical memory alone: every such step begins with the pulse
down, and halts, or finishes an instruction or one more sample of the key port with the core still running. -/
theorem Inv.of_step_running {s t : State} (hr : s.run = .running) (hw : s.mem.wf = true) (h : step s = .next t) :
    Inv t := by
  obtain ⟨d, hfetch⟩ := s.afterFetch_eq
  obtain ⟨x, -, he⟩ | ⟨hh, -, he⟩ | ⟨-, hne, u, hu, he⟩ := step_of_running hr <;> cases h.symm.trans he
  · have hf := SameExcept.awaitKey s.beginStep x
    exact Inv.finish (wf_exec (exec_ldVxK x s.beginStep) hw) ((hf.run_eq (by simp)).trans hr)
      (hf.redrawReq_eq (by simp))
  · rw [hfetch]
    exact Inv.of_quiet hw hh rfl
  · have hf := exec_frame hu
    have hrun := hf.run_eq fun hm => hne (run_mem_touchedParts hm)
    have hq := hf.redrawReq_eq (redrawReq_not_mem_touchedParts _)
    rw [hfetch] at hu hrun
    exact Inv.finish (wf_exec hu hw) (hrun.trans hr) hq

/-! ## What an instruction writes -/

/-- No instruction changes a byte from 4096 on (20_memory.md R58). -/
theorem byteAt_exec_outside {i : Instr} {s t : State} (h : exec i s = .next t) {a : Nat} (ha : 4096 ≤ a) :
    t.byteAt a = s.byteAt a := by
  by_cases hp : Part.mem ∈ touchedParts i
  · obtain rfl | ⟨nnn, rfl⟩ | ⟨x, y, n, rfl⟩ | ⟨x, rfl⟩ := mem_or_changed_mem_touchedParts (.inl hp)
    · rw [exec_cls] at h
      injection h with h
      rw [← h, State.markChanged_byteAt, State.byteAt_zeroBytes, if_neg (by omega)]
    · rw [exec_call] at h
      injection h with h
      rw [← h, State.jumpTo_byteAt, State.byteAt_push, if_neg (by omega), if_neg (by omega)]
    · rw [byteAt_exec_drw h, toggleMask_outside_framebuffer s x y _ (.inr ha)]
      exact BitVec.xor_zero
    · rw [exec_ldMemVx] at h
      injection h with h
      rw [← h]
      exact (State.byteAt_storeRegs _ _ s a).2 (.inr ha)
  · exact (exec_frame h).byteAt_eq hp a

/-! ## The host's loads -/

/-- The host cannot write while the core runs, nor where there is no memory (20_memory.md R62). -/
theorem State.hostWrite_eq_none {s : State} {a : Nat} (h : s.run = .running ∨ 4096 ≤ a) (b : Byte) :
    s.hostWrite a b = none := if_pos h

/-- While the core does not run, a host write below 4096 is a write of memory alone (20_memory.md R62). -/
theorem State.hostWrite_eq_some {s : State} {a : Nat} (hr : s.run ≠ .running) (ha : a < 4096) (b : Byte) :
    s.hostWrite a b = some { s with mem := Memory.write s.mem a b } :=
  if_neg (not_or.2 ⟨hr, Nat.not_le.2 ha⟩)

/-- The host's load of one byte more: its write, then the rest one address up. -/
theorem State.loadImage_cons (s : State) (a : Nat) (b : Byte) (bs : List Byte) :
    State.loadImage a (b :: bs) s = (s.hostWrite a b).bind (State.loadImage (a + 1) bs) := by
  cases h : s.hostWrite a b <;> simp [State.loadImage, h]

/-- A byte of memory after one was written to its list. -/
theorem State.byteAt_write_mem (s : State) (a : Nat) (b : Byte) (k : Nat) :
    ({ s with mem := Memory.write s.mem a b } : State).byteAt k = if a = k then b else s.byteAt k := by
  simp only [State.byteAt, Memory.read_write]
  split <;> rfl

/-- A load while the core runs, or one that runs past the end of memory, is not done. -/
theorem State.loadImage_eq_none {a : Nat} {bs : List Byte} {s : State} (hne : bs ≠ [])
    (h : s.run = .running ∨ 4096 < a + bs.length) : State.loadImage a bs s = none := by
  induction bs generalizing a s with
  | nil => exact absurd rfl hne
  | cons b bs ih =>
    rw [State.loadImage_cons]
    by_cases hfirst : s.run = .running ∨ 4096 ≤ a
    · rw [State.hostWrite_eq_none hfirst, Option.bind_none]
    · obtain ⟨hr, ha⟩ := not_or.1 hfirst
      have hlong : 4096 < a + 1 + bs.length := by
        have := h.resolve_left hr
        rw [List.length_cons] at this
        omega
      have hbs : bs ≠ [] := by
        rintro rfl
        rw [List.length_nil] at hlong
        omega
      rw [State.hostWrite_eq_some hr (Nat.not_le.1 ha), Option.bind_some]
      exact ih hbs (.inr hlong)

/-- A load that fits, while the core does not run, writes memory alone: its bytes upward from its address, and no
other (20_memory.md R53). -/
theorem State.loadImage_eq_some {a : Nat} {bs : List Byte} {s : State} (hr : s.run ≠ .running)
    (h : a + bs.length ≤ 4096) :
    ∃ m, State.loadImage a bs s = some { s with mem := m } ∧
      (∀ k b, bs[k]? = some b → ({ s with mem := m } : State).byteAt (a + k) = b) ∧
      SameBytesOutside (fun p => a ≤ p ∧ p < a + bs.length) s { s with mem := m } := by
  induction bs generalizing a s with
  | nil => exact ⟨s.mem, rfl, by simp, fun _ _ => rfl⟩
  | cons c bs ih =>
    rw [List.length_cons] at h ⊢
    obtain ⟨m, hload, hbytes, hsame⟩ :=
      ih (a := a + 1) (s := { s with mem := Memory.write s.mem a c }) hr (by omega)
    refine ⟨m, ?_, fun k b hk => ?_, fun p hp => ?_⟩
    · rw [State.loadImage_cons, State.hostWrite_eq_some hr (by omega), Option.bind_some, hload]
    · cases k with
      | zero =>
        obtain rfl : c = b := by simpa using hk
        exact (hsame a (by omega)).trans ((State.byteAt_write_mem s a c a).trans (if_pos rfl))
      | succ k =>
        rw [← hbytes k b (by simpa using hk), Nat.add_right_comm]; rfl
    · exact (hsame p (by omega)).trans ((State.byteAt_write_mem s a c p).trans (if_neg (by omega)))

/-! ## The fetch after a block store -/

/-- The byte a block store leaves at a stored register's address (48_block.md R200). -/
theorem byteAt_exec_ldMemVx {x r : Reg} {s t : State} (h : exec (.ldMemVx x) s = .next t) (hr : r ≤ x)
    (h4 : s.i.toNat + r.val < 4096) : t.byteAt (s.i.toNat + r.val) = s.readV r := by
  rw [exec_ldMemVx] at h
  injection h with h
  rw [← h]
  exact (State.byteAt_storeRegs _ _ s _).1 r ((mem_regsThrough x r).2 hr) rfl h4

/-! ## The draw as pixels -/

/-- The bit that a draw of `n` rows XORs into a pixel (20_memory.md R60). -/
def togglesPixel (s : State) (x y : Reg) (n px py : Nat) : Bool :=
  (toggleMask s x y n (0xF00 + py * 8 + px / 8)).getLsbD (7 - px % 8)

/-- A draw XORs its mask into the screen, pixel by pixel. -/
theorem pixel_exec_drw {x y : Reg} {n : Nibble} {s t : State} (h : exec (.drw x y n) s = .next t) (px py : Nat) :
    t.pixel px py = (s.pixel px py ^^ togglesPixel s x y n.toNat px py) := by
  rw [State.pixel, byteAt_exec_drw h, BitVec.getLsbD_xor]; rfl

/-- Past the right edge a pixel's place is in the row below. -/
theorem togglesPixel_wrap (s : State) (x y : Reg) (n py : Nat) {px : Nat} (h : 64 ≤ px) :
    togglesPixel s x y n (px - 64) (py + 1) = togglesPixel s x y n px py := by
  rw [togglesPixel, togglesPixel, show 0xF00 + (py + 1) * 8 + (px - 64) / 8 = 0xF00 + py * 8 + px / 8 by omega,
    show (px - 64) % 8 = px % 8 by omega]

section
variable {s : State} {x y : Reg} {n x0 y0 : Nat}
variable (hx0 : x0 = (s.readV x).toNat % 64) (hy0 : y0 = (s.readV y).toNat % 32)
include hx0 hy0

/-- Pixel `k` of sprite row `r`, counted along the row from the origin's column and on into the row below past the
right edge, is toggled exactly when the sprite's bit is 1: the bit is in the row's left part up to the end of the
origin's byte, and in its right part from there on (45_display.md R171, R173). -/
theorem togglesPixel_row {r k : Nat} (hr : r < n) (hk : k < 8) (h4 : 0xF00 + (y0 + r) * 8 + (x0 + k) / 8 < 4096) :
    togglesPixel s x y n (x0 + k) (y0 + r) = (sourceByte s x y r).getLsbD (7 - k) := by
  have hshift : drawShift s x = x0 % 8 := by rw [hx0]; rfl
  have haddr : drawAddr s x y r = 0xF00 + (y0 + r) * 8 + x0 / 8 := by rw [hx0, hy0]; rfl
  rw [togglesPixel]
  by_cases hleft : x0 % 8 + k < 8
  · rw [show 0xF00 + (y0 + r) * 8 + (x0 + k) / 8 = drawAddr s x y r by omega] at h4 ⊢
    rw [toggleMask_left s x y hr h4, BitVec.getLsbD_ushiftRight]
    congr 1; omega
  · rw [show 0xF00 + (y0 + r) * 8 + (x0 + k) / 8 = drawAddr s x y r + 1 by omega] at h4 ⊢
    rw [toggleMask_right s x y hr (by omega) h4, BitVec.getLsbD_shiftLeft, decide_eq_true (by omega),
      decide_eq_false (by omega), Bool.true_and, Bool.not_false, Bool.true_and]
    congr 1; omega

/-- A pixel of the screen that no sprite pixel falls on is not toggled: its byte has no row, or it lies left of the
origin's column in a row's own byte, or past the row's eighth pixel in the next one. -/
theorem togglesPixel_other {px py : Nat} (hpx : px < 64)
    (h : ∀ r k, r < n → k < 8 → ¬ (px = x0 + k ∧ py = y0 + r) ∧ ¬ (px + 64 = x0 + k ∧ py = y0 + r + 1)) :
    togglesPixel s x y n px py = false := by
  have hshift : drawShift s x = x0 % 8 := by rw [hx0]; rfl
  rw [togglesPixel]
  by_cases ht : DrawTouches s x y n (0xF00 + py * 8 + px / 8)
  · obtain ⟨h4, r, hr, ha⟩ := ht
    have haddr : drawAddr s x y r = 0xF00 + (y0 + r) * 8 + x0 / 8 := by rw [hx0, hy0]; rfl
    obtain ha | ⟨hs, ha⟩ := ha
    · have hbefore : px % 8 < x0 % 8 := by
        by_contra hge
        have := h r (px - x0) hr (by omega)
        omega
      rw [ha, toggleMask_left s x y hr (ha ▸ h4), BitVec.getLsbD_ushiftRight]
      exact BitVec.getLsbD_of_ge _ _ (by omega)
    · have hafter : x0 % 8 ≤ px % 8 := by
        by_contra hlt
        have := h r (8 - x0 % 8 + px % 8) hr (by omega)
        omega
      rw [ha, toggleMask_right s x y hr hs (ha ▸ h4), BitVec.getLsbD_shiftLeft,
        decide_eq_true (p := _ < 8 - _) (by omega), Bool.not_true, Bool.and_false, Bool.false_and]
  · rw [toggleMask_untouched ht]
    exact BitVec.getLsbD_zero

end

end Sys2Proof
end

section
/-! PROOFS. The statements of the family 20_memory.md. -/

namespace Sys2Proof

open Sys2Proof.Machine

/-- Settles O51: each run state's step gives the invariant from canonical memory, which every step keeps. -/
theorem everyStepKeepsTheInvariant : Obligations.EveryStepKeepsTheInvariant := by
  intro s t hinv h
  obtain ⟨hw, -⟩ := hinv
  cases hr : s.run with
  | running => exact Inv.of_step_running hr hw h
  | reset => cases h.symm.trans (step_of_reset hr); exact Inv.applyReset hw
  | halted => cases h.symm.trans (step_of_halted hr)

/-- Settles O29: the draw's mask has each sprite pixel at its place, across the right edge too, and no other bit. -/
theorem drawTogglesSpritePixels : Obligations.DrawTogglesSpritePixels := by
  intro x y n s t x0 y0 hsrc h hx0 hy0
  refine ⟨fun r k hr hk => ⟨fun hx hy => ?_, fun hx hy => ?_⟩, fun px py hpx _ hother => ?_⟩
  · rw [pixel_exec_drw h, togglesPixel_row hx0 hy0 hr hk (by omega), sourceByte_below s x y (by omega)]
  · rw [pixel_exec_drw h, togglesPixel_wrap s x y _ _ hx, togglesPixel_row hx0 hy0 hr hk (by omega),
      sourceByte_below s x y (by omega)]
  · rw [pixel_exec_drw h, togglesPixel_other hx0 hy0 hpx hother, Bool.xor_false]

/-- Settles O40: both bytes at `PC` lie in memory, and each is the register stored there. -/
theorem fetchSeesABlockStoreAtOnce : Obligations.FetchSeesABlockStoreAtOnce := by
  intro x r s t hrx h4 h hpc
  have hnext : (r + 1).val = r.val + 1 := Fin.val_add_one_of_lt (hrx.trans_le (Fin.le_last x))
  have hlow := byteAt_exec_ldMemVx h (Fin.add_one_le_of_lt hrx) (by omega)
  rw [hnext, ← Nat.add_assoc] at hlow
  rw [State.fetchWord, hpc, (State.readWord_inside h4).1, byteAt_exec_ldMemVx h hrx.le (by omega), hlow]

/-- Settles O50, from what a load does when it is done and when it is not. -/
theorem hostLoadsMemoryWhileNotRunning : Obligations.HostLoadsMemoryWhileNotRunning := by
  intro a bs s hne
  refine ⟨State.loadImage_eq_none hne, fun hr hfit => ?_⟩
  obtain ⟨m, hload, hbytes, hsame⟩ := State.loadImage_eq_some hr hfit
  exact ⟨_, hload, hbytes, hsame, by apply SameExcept.of_fields <;> simp⟩

/-- Settles O54: the frames name the writers of memory, and none of the four reaches a byte from 4096 on. -/
theorem onlyFourInstructionsWriteMemory : Obligations.OnlyFourInstructionsWriteMemory := by
  intro i s t a h hne
  refine ⟨Nat.not_le.1 fun ha => hne (byteAt_exec_outside h ha), ?_⟩
  exact mem_or_changed_mem_touchedParts (.inl (not_imp_comm.1 (fun hp => (exec_frame h).byteAt_eq hp a) hne))

/-- Settles O41: a read outside memory takes the next answer, so the read after it gets the one after that. -/
theorem outsideMemoryReadsAreDrawnAndWritesDropped : Obligations.OutsideMemoryReadsAreDrawnAndWritesDropped := by
  intro s a b w ha hb
  refine ⟨?_, ?_, SameExcept.afterRead s a, State.memWrite_outside ha w⟩
  · rw [State.readByte_outside ha, Draws.next_eq_nthAnswer]
  · rw [State.readByte_outside hb, State.afterRead_outside ha, Draws.next_eq_nthAnswer, nthAnswer_advance]

end Sys2Proof
end

section
/-! SUPPORT. The decoder as the inverse of the encoder, and that it answers well-formed instructions only
(30_encoding.md R84 to R90). -/

namespace Sys2Proof

open Laws

/-! ## Decoding a word that was encoded -/

/-- Decoding the word of a well-formed instruction gives the instruction back (30_encoding.md R84, R90). -/
theorem decodeWord_encodeWord : ∀ i : Instr, RoundTrip.Statement i
  | .halt => RoundTrip.halt
  | .cls => RoundTrip.cls
  | .ret => RoundTrip.ret
  | .sys nnn => RoundTrip.sys nnn
  | .jp nnn => RoundTrip.jp nnn
  | .call nnn => RoundTrip.call nnn
  | .seImm x kk => RoundTrip.seImm x kk
  | .sneImm x kk => RoundTrip.sneImm x kk
  | .seReg x y => RoundTrip.seReg x y
  | .ldImm x kk => RoundTrip.ldImm x kk
  | .addImm x kk => RoundTrip.addImm x kk
  | .ldReg x y => RoundTrip.ldReg x y
  | .orReg x y => RoundTrip.orReg x y
  | .andReg x y => RoundTrip.andReg x y
  | .xorReg x y => RoundTrip.xorReg x y
  | .addReg x y => RoundTrip.addReg x y
  | .subReg x y => RoundTrip.subReg x y
  | .shr x y => RoundTrip.shr x y
  | .subn x y => RoundTrip.subn x y
  | .shl x y => RoundTrip.shl x y
  | .sneReg x y => RoundTrip.sneReg x y
  | .ldI nnn => RoundTrip.ldI nnn
  | .jpV0 nnn => RoundTrip.jpV0 nnn
  | .rnd x kk => RoundTrip.rnd x kk
  | .drw x y n => RoundTrip.drw x y n
  | .skp x => RoundTrip.skp x
  | .sknp x => RoundTrip.sknp x
  | .ldVxDt x => RoundTrip.ldVxDt x
  | .ldVxK x => RoundTrip.ldVxK x
  | .ldDtVx x => RoundTrip.ldDtVx x
  | .ldStVx x => RoundTrip.ldStVx x
  | .addI x => RoundTrip.addI x
  | .ldF x => RoundTrip.ldF x
  | .ldB x => RoundTrip.ldB x
  | .ldMemVx x => RoundTrip.ldMemVx x
  | .ldVxMem x => RoundTrip.ldVxMem x
  | .rsv5 x y sub => RoundTrip.rsv5 x y sub
  | .rsv8 x y sub => RoundTrip.rsv8 x y sub
  | .rsv9 x y sub => RoundTrip.rsv9 x y sub
  | .rsvE x sub => RoundTrip.rsvE x sub
  | .rsvF x sub => RoundTrip.rsvF x sub

/-- Only the word zero decodes to the sentinel (30_encoding.md R87). -/
theorem decodeWord_eq_halt {op : Word} : decodeWord op = .halt ↔ op = 0x0000 :=
  ⟨fun h => by rw [← encodeWord_decodeWord op, h]; rfl, fun h => h ▸ RoundTrip.halt rfl⟩

/-! ## What the decoder answers is well formed -/

/-- A word of family 0 is told from the three fixed words by its `nnn`. -/
theorem nnnOf_ne_of_family0 {op : Word} (hf : famOf op = 0x0) {k : Addr12} (h : op ≠ formA 0x0 k) : nnnOf op ≠ k :=
  fun e => h (by rw [← e, formA_of_fields hf])

theorem wellFormed_decodeFamily0 {op : Word} (hf : famOf op = 0x0) : (decodeFamily0 op).wellFormed = true := by
  unfold decodeFamily0
  split_ifs with h0 h1 h2
  case neg =>
    have n0 : nnnOf op ≠ 0x000 := nnnOf_ne_of_family0 hf h0
    have n1 : nnnOf op ≠ 0x0E0 := nnnOf_ne_of_family0 hf h1
    have n2 : nnnOf op ≠ 0x0EE := nnnOf_ne_of_family0 hf h2
    simpa [Instr.wellFormed] using And.intro (And.intro n0 n1) n2
  all_goals rfl

theorem wellFormed_decodeFamily5 (op : Word) : (decodeFamily5 op).wellFormed = true := by
  unfold decodeFamily5
  split_ifs with h
  · rfl
  · simpa [Instr.wellFormed] using h

theorem wellFormed_decodeFamily8 (op : Word) : (decodeFamily8 op).wellFormed = true := by
  unfold decodeFamily8
  split
  case h_10 =>
    have key : ∀ n : Nibble, n.toNat ∉ [0x0, 0x1, 0x2, 0x3, 0x4, 0x5, 0x6, 0x7, 0xE] →
        (!aluSubOpcodes.contains n) = true := by decide
    exact key _ (by simp_all)
  all_goals rfl

theorem wellFormed_decodeFamily9 (op : Word) : (decodeFamily9 op).wellFormed = true := by
  unfold decodeFamily9
  split_ifs with h
  · rfl
  · simpa [Instr.wellFormed] using h

theorem wellFormed_decodeFamilyE (op : Word) : (decodeFamilyE op).wellFormed = true := by
  unfold decodeFamilyE
  split_ifs
  case neg => simp_all [Instr.wellFormed, keySubOpcodes]
  all_goals rfl

theorem wellFormed_decodeFamilyF (op : Word) : (decodeFamilyF op).wellFormed = true := by
  unfold decodeFamilyF
  split_ifs
  case neg => simp_all [Instr.wellFormed, miscSubOpcodes]
  all_goals rfl

/-- Every word decodes to a well-formed instruction (30_encoding.md R90). -/
theorem wellFormed_decodeWord (op : Word) : (decodeWord op).wellFormed = true := by
  unfold decodeWord
  split
  case h_1 h => exact wellFormed_decodeFamily0 (BitVec.eq_of_toNat_eq h)
  case h_6 => exact wellFormed_decodeFamily5 op
  case h_9 => exact wellFormed_decodeFamily8 op
  case h_10 => exact wellFormed_decodeFamily9 op
  case h_15 => exact wellFormed_decodeFamilyE op
  case h_16 => exact wellFormed_decodeFamilyF op
  all_goals rfl

end Sys2Proof
end

section
/-! SUPPORT. The opcode map as a search: which words a row matches, which two rows can match one word, and the row of
each instruction (30_encoding.md R81 to R84). -/

namespace Sys2Proof

/-! ## A word under the three masks of the map -/

theorem regBits_and_zero (x : Reg) : regBits x &&& regBits 0 = regBits 0 := BitVec.and_zero

/-- The bits of the family (30_encoding.md R81). -/
theorem and_F000 (op : Word) : op &&& 0xF000 = formA (famOf op) 0 := by
  have h : formA (famOf op) (nnnOf op) &&& formA (BitVec.allOnes 4) 0#12 = formA (famOf op) 0#12 := by
    rw [formA, formA, BitVec.and_append, BitVec.and_zero, BitVec.and_allOnes, formA]
  rwa [formA_fields] at h

/-- The bits of the family and of the low nibble. -/
theorem and_F00F (op : Word) : op &&& 0xF00F = formXYN (famOf op) 0 0 (nOf op) := by
  have h : formXYN (famOf op) (xOf op) (yOf op) (nOf op) &&& formXYN (BitVec.allOnes 4) 0 0 (BitVec.allOnes 4) =
      formXYN (famOf op) 0 0 (nOf op) := by
    rw [formXYN, formXYN, BitVec.and_append, BitVec.and_append, BitVec.and_append, regBits_and_zero,
      regBits_and_zero, BitVec.and_allOnes, BitVec.and_allOnes, formXYN]
  rwa [formXYN_fields] at h

/-- The bits of the family and of the low byte. -/
theorem and_F0FF (op : Word) : op &&& 0xF0FF = formXK (famOf op) 0 (kkOf op) := by
  have h : formXK (famOf op) (xOf op) (kkOf op) &&& formXK (BitVec.allOnes 4) 0 (BitVec.allOnes 8) =
      formXK (famOf op) 0 (kkOf op) := by
    rw [formXK, formXK, BitVec.and_append, BitVec.and_append, regBits_and_zero, BitVec.and_allOnes,
      BitVec.and_allOnes, formXK]
  rwa [formXK_fields] at h

theorem nOf_and_F00F (op : Word) : nOf (op &&& 0xF00F) = nOf op := by
  rw [and_F00F, nOf_formXYN]

theorem kkOf_and_F0FF (op : Word) : kkOf (op &&& 0xF0FF) = kkOf op := by
  rw [and_F0FF, kkOf_formXK]

theorem nnnOf_and_FFFF (op : Word) : nnnOf (op &&& 0xFFFF) = nnnOf op :=
  congrArg nnnOf BitVec.and_allOnes

/-! ## Rows -/

/-- A row matches a word: the test of `firstRow` (30_encoding.md R84). -/
def MapRow.Matches (r : MapRow) (op : Word) : Prop := op &&& r.mask = r.pattern

/-- Two rows fix some bit that both of their masks test to different values. -/
def MapRow.apart (r r' : MapRow) : Bool := r.pattern &&& r'.mask != r'.pattern &&& r.mask

/-- No word matches two rows that are apart. -/
theorem MapRow.Matches.not_of_apart {r r' : MapRow} {op : Word} (h : r.Matches op) (ha : r'.apart r = true) :
    ¬ r'.Matches op := by
  intro h'
  rw [MapRow.Matches] at h h'
  rw [MapRow.apart, ← h, ← h', BitVec.and_assoc, BitVec.and_assoc, BitVec.and_comm r.mask] at ha
  simp at ha

/-- The map's rows stand in the order of their numbers. -/
theorem opcodeMap_sorted : opcodeMap.Pairwise fun r r' => r.order < r'.order := by decide

/-- A row that matches, and before which no row matches, is the one the search answers. -/
theorem firstRow_eq_some {r : MapRow} {op : Word} (hr : r ∈ opcodeMap) (h : r.Matches op)
    (hfirst : ∀ r' ∈ opcodeMap, r'.order < r.order → ¬ r'.Matches op) : firstRow op = some r := by
  obtain ⟨pre, post, hsplit⟩ := List.append_of_mem hr
  have hsorted := hsplit ▸ opcodeMap_sorted
  refine List.find?_eq_some_iff_append.2 ⟨by simpa [MapRow.Matches] using h, pre, post, hsplit, fun r' hr' => ?_⟩
  have hlt : r'.order < r.order := (List.pairwise_append.1 hsorted).2.2 r' hr' r (by simp)
  simpa [MapRow.Matches] using hfirst r' (by simp [hsplit, hr']) hlt

/-! ## The row of an instruction -/

theorem Instr.row_sub_one_lt (i : Instr) : i.row - 1 < opcodeMap.length := by
  show i.row - 1 < 41
  cases i <;> simp [Instr.row]

/-- The row of the map that an instruction's number names. -/
def Instr.mapRow (i : Instr) : MapRow := opcodeMap[i.row - 1]'i.row_sub_one_lt

theorem mapRow_mem (i : Instr) : i.mapRow ∈ opcodeMap := List.getElem_mem _

theorem mapRow_order (i : Instr) : i.mapRow.order = i.row := by cases i <;> rfl

/-- The word of an instruction matches the instruction's row: its family alone is tested, or its family and its
sub-opcode, or all of it. -/
theorem mapRow_matches_encodeWord (i : Instr) : i.mapRow.Matches (encodeWord i) := by
  cases i
  case halt | cls | ret => rfl
  case sys nnn | jp nnn | call nnn | ldI nnn | jpV0 nnn =>
    exact (and_F000 _).trans (by rw [encodeWord, famOf_formA]; rfl)
  case seImm x kk | sneImm x kk | ldImm x kk | addImm x kk | rnd x kk | rsvE x kk | rsvF x kk =>
    exact (and_F000 _).trans (by rw [encodeWord, famOf_formXK]; rfl)
  case drw x y n | rsv5 x y n | rsv8 x y n | rsv9 x y n =>
    exact (and_F000 _).trans (by rw [encodeWord, famOf_formXYN]; rfl)
  case skp x | sknp x | ldVxDt x | ldVxK x | ldDtVx x | ldStVx x | addI x | ldF x | ldB x | ldMemVx x | ldVxMem x =>
    exact (and_F0FF _).trans (by rw [encodeWord, famOf_formXK, kkOf_formXK]; rfl)
  all_goals exact (and_F00F _).trans (by rw [encodeWord, famOf_formXYN, nOf_formXYN]; rfl)

/-- The format of an instruction's row reads the instruction's fields out of its word (30_encoding.md R82). -/
theorem mapRow_fields_encodeWord (i : Instr) : i.mapRow.format.fields (encodeWord i) = i.fields := by
  cases i
  case halt | cls | ret => rfl
  case sys nnn | jp nnn | call nnn | ldI nnn | jpV0 nnn => exact congrArg Fields.nnn (nnnOf_formA _ nnn)
  case seImm x kk | sneImm x kk | ldImm x kk | addImm x kk | rnd x kk =>
    exact congrArg₂ Fields.xkk (xOf_formXK _ x kk) (kkOf_formXK _ x kk)
  case skp x | sknp x | ldVxDt x | ldVxK x | ldDtVx x | ldStVx x | addI x | ldF x | ldB x | ldMemVx x | ldVxMem x =>
    exact congrArg₂ Fields.xs (xOf_formXK _ x _) (kkOf_formXK _ x _)
  case rsvE x sub | rsvF x sub => exact congrArg₂ Fields.xs (xOf_formXK _ x sub) (kkOf_formXK _ x sub)
  all_goals
    show Fields.xy (xOf (formXYN _ _ _ _)) (yOf (formXYN _ _ _ _)) (nOf (formXYN _ _ _ _)) = Fields.xy _ _ _
    rw [xOf_formXYN, yOf_formXYN, nOf_formXYN]

/-! ## No earlier row matches -/

/-- The rows that take what earlier rows leave: `SYS` and the five reserved rows (30_encoding.md R88). -/
def restRows : List Nat := [4, 37, 38, 39, 40, 41]

theorem mem_restRows {i : Instr} (h : i.row ∈ restRows) :
    (∃ nnn, i = .sys nnn) ∨ (∃ x y sub, i = .rsv5 x y sub ∨ i = .rsv8 x y sub ∨ i = .rsv9 x y sub) ∨
      ∃ x sub, i = .rsvE x sub ∨ i = .rsvF x sub := by
  cases i <;> simp [Instr.row, restRows] at h ⊢

/-- Every other row is apart from all the rows before it. -/
theorem apart_of_not_mem_restRows : ∀ r ∈ opcodeMap, r.order ∉ restRows →
    ∀ r' ∈ opcodeMap, r'.order < r.order → r'.apart r = true := by decide

/-- The rows before `r` that are not apart from it test, with the mask `mask`, a field `field` of the word for one of
the values `taken`. -/
abbrev MapRow.TakesRest {α : Type} (r : MapRow) (mask : Word) (field : Word → α) (taken : List α) : Prop :=
  ∀ r' ∈ opcodeMap, r'.order < r.order → r'.apart r = true ∨ (r'.mask = mask ∧ field r'.pattern ∈ taken)

/-- A row that takes the rest is the first to match a word whose field has none of the taken values. -/
theorem MapRow.TakesRest.not_matches {α : Type} {r : MapRow} {mask op : Word} {field : Word → α} {taken : List α}
    (hr : r.TakesRest mask field taken) (hfield : ∀ w, field (w &&& mask) = field w) (h : r.Matches op)
    (hop : field op ∉ taken) : ∀ r' ∈ opcodeMap, r'.order < r.order → ¬ r'.Matches op := by
  intro r' hmem hlt h'
  obtain ha | ⟨hmask, htaken⟩ := hr r' hmem hlt
  · exact h.not_of_apart ha h'
  · rw [← h', hmask, hfield] at htaken
    exact hop htaken

theorem takesRest_sys (nnn : Addr12) :
    (Instr.sys nnn).mapRow.TakesRest 0xFFFF nnnOf [0x000, 0x0E0, 0x0EE] :=
  show opcodeMap[3].TakesRest _ _ _ by decide

theorem takesRest_rsv5 (x y : Reg) (sub : Nibble) : (Instr.rsv5 x y sub).mapRow.TakesRest 0xF00F nOf [0x0] :=
  show opcodeMap[36].TakesRest _ _ _ by decide

theorem takesRest_rsv8 (x y : Reg) (sub : Nibble) :
    (Instr.rsv8 x y sub).mapRow.TakesRest 0xF00F nOf aluSubOpcodes :=
  show opcodeMap[37].TakesRest _ _ _ by decide

theorem takesRest_rsv9 (x y : Reg) (sub : Nibble) : (Instr.rsv9 x y sub).mapRow.TakesRest 0xF00F nOf [0x0] :=
  show opcodeMap[38].TakesRest _ _ _ by decide

theorem takesRest_rsvE (x : Reg) (sub : Byte) : (Instr.rsvE x sub).mapRow.TakesRest 0xF0FF kkOf keySubOpcodes :=
  show opcodeMap[39].TakesRest _ _ _ by decide

theorem takesRest_rsvF (x : Reg) (sub : Byte) : (Instr.rsvF x sub).mapRow.TakesRest 0xF0FF kkOf miscSubOpcodes :=
  show opcodeMap[40].TakesRest _ _ _ by decide

/-- No row before an instruction's own matches its word: being well formed is what rules out the rows that `SYS` and
the reserved rows overlap. -/
theorem not_matches_before_mapRow {i : Instr} (h : i.wellFormed = true) :
    ∀ r' ∈ opcodeMap, r'.order < i.mapRow.order → ¬ r'.Matches (encodeWord i) := by
  have hm := mapRow_matches_encodeWord i
  by_cases hrest : i.row ∈ restRows
  · obtain ⟨nnn, rfl⟩ | ⟨x, y, sub, rfl | rfl | rfl⟩ | ⟨x, sub, rfl | rfl⟩ := mem_restRows hrest
    · exact (takesRest_sys nnn).not_matches nnnOf_and_FFFF hm
        (by simpa [Instr.wellFormed, encodeWord, and_assoc] using h)
    · exact (takesRest_rsv5 x y sub).not_matches nOf_and_F00F hm
        (by simpa [Instr.wellFormed, encodeWord] using h)
    · exact (takesRest_rsv8 x y sub).not_matches nOf_and_F00F hm
        (by simpa [Instr.wellFormed, encodeWord] using h)
    · exact (takesRest_rsv9 x y sub).not_matches nOf_and_F00F hm
        (by simpa [Instr.wellFormed, encodeWord] using h)
    · exact (takesRest_rsvE x sub).not_matches kkOf_and_F0FF hm
        (by simpa [Instr.wellFormed, encodeWord] using h)
    · exact (takesRest_rsvF x sub).not_matches kkOf_and_F0FF hm
        (by simpa [Instr.wellFormed, encodeWord] using h)
  · rw [← mapRow_order] at hrest
    exact fun r' hr' hlt => hm.not_of_apart (apart_of_not_mem_restRows _ (mapRow_mem i) hrest r' hr' hlt)

/-- The search of the map answers, on a well-formed instruction's word, the instruction's row. -/
theorem firstRow_encodeWord {i : Instr} (h : i.wellFormed = true) : firstRow (encodeWord i) = some i.mapRow :=
  firstRow_eq_some (mapRow_mem i) (mapRow_matches_encodeWord i) (not_matches_before_mapRow h)

end Sys2Proof
end

section
/-! SUPPORT. The instructions that do nothing and the step that fetches one; what a step that fetches leaves of the run
state (30_encoding.md R87, R88). -/

namespace Sys2Proof.Machine

/-- The count goes up by one modulo 8, and a tick finds it come round to 0 (40_run_loop.md R105). -/
theorem State.icount_countAndTick (s : State) : s.countAndTick.icount = s.icount + 1 := by
  rcases s.countAndTick_cases with ⟨h7, h⟩ | ⟨-, -, h⟩ <;> rw [h]
  rw [h7]; rfl

end Sys2Proof.Machine

namespace Sys2Proof

open Sys2Proof.Machine

/-- `SYS` and the reserved rows change nothing (30_encoding.md R88, 41_control.md R120). -/
theorem exec_of_mem_restRows {i : Instr} (h : i.row ∈ restRows) (s : State) : exec i s = .next s := by
  obtain ⟨nnn, rfl⟩ | ⟨x, y, sub, rfl | rfl | rfl⟩ | ⟨x, sub, rfl | rfl⟩ := mem_restRows h <;> rfl

/-- An instruction but the sentinel leaves the core running, and so does the end of its step (40_run_loop.md R103). -/
theorem run_of_exec_finish {i : Instr} {s u : State} (hi : i ≠ .halt) (h : exec i s = .next u) :
    u.finish.run = s.run :=
  ((SameExcept.finish u).run_eq (by simp)).trans ((exec_frame h).run_eq fun hm => hi (run_mem_touchedParts hm))

/-- The step of a fetching core, with `PC` in memory, on a word of `SYS` or a reserved row: the advance and the count
(40_run_loop.md R102, R105). -/
theorem step_of_mem_restRows {s : State} (hf : AtFetch s) (hpc : PcInMemory s)
    (h : (decodeWord s.fetchWord).row ∈ restRows) :
    step s = .next ({ s with pc := s.pc + 2, redrawReq := false } : State).countAndTick := by
  have hne : decodeWord s.fetchWord ≠ .halt := fun e => by simp [e, Instr.row, restRows] at h
  have hfetch : s.afterFetch = s := (State.readWord_inside hpc).2
  have hu := exec_of_mem_restRows h { s.afterFetch with pc := s.pc + 2, redrawReq := false }
  rw [step_of_fetch_next hf rfl hne hu, hfetch]
  exact congrArg _ (State.finish_free hf.2)

end Sys2Proof
end

section
/-! PROOFS. The statements of the family 30_encoding.md. -/

namespace Sys2Proof

open Sys2Proof.Machine

/-- Settles O1: the two bytes join to the word, and each instruction's word decodes to it. -/
theorem encodedInstructionDecodesBack : Obligations.EncodedInstructionDecodesBack := by
  intro i rest h
  rw [decode_encode_append, decodeWord_encodeWord i h]

/-- Settles O2: decoding is the inverse of encoding on both sides, and answers well-formed instructions only. -/
theorem everyWordIsExactlyOneInstruction : Obligations.EveryWordIsExactlyOneInstruction := by
  intro op
  refine ⟨wellFormed_decodeWord op, encodeWord_decodeWord op, fun i h he => ?_⟩
  rw [← he, decodeWord_encodeWord i h]

/-- Settles O3: a word is the encoding of the well-formed instruction it decodes to, whose row is the first to match. -/
theorem decoderFollowsTheOpcodeMap : Obligations.DecoderFollowsTheOpcodeMap := by
  refine ⟨rfl, fun op => ⟨(decodeWord op).mapRow, ?_, mapRow_order _, ?_⟩⟩
  · rw [← firstRow_encodeWord (wellFormed_decodeWord op), encodeWord_decodeWord]
  · rw [← mapRow_fields_encodeWord, encodeWord_decodeWord]

/-- Settles O5: the sentinel's word halts, and every other word's instruction leaves the core running. -/
theorem onlyTheZeroWordHalts : Obligations.OnlyTheZeroWordHalts := by
  refine ⟨fun _ => decodeWord_eq_halt, fun s hf => ⟨?_, fun hw => ?_⟩⟩
  · rintro ⟨t, hstep, hhalted⟩
    obtain ⟨hrun, hfree⟩ := hf
    obtain ⟨x, hheld, -⟩ | ⟨-, hd, -⟩ | ⟨-, hne, u, hu, he⟩ := step_of_running hrun
    · rw [hfree] at hheld; cases hheld
    · exact decodeWord_eq_halt.1 hd
    · cases hstep.symm.trans he
      rw [run_of_exec_finish hne hu, (SameExcept.fetched s).run_eq (by simp), hrun] at hhalted
      cases hhalted
  · exact ⟨_, step_of_fetch_halt hf (decodeWord_eq_halt.2 hw), rfl⟩

/-- Settles O6: none of the six rows does anything, so a step that fetches one is the advance and the count. -/
theorem reservedWordsChangeNothing : Obligations.ReservedWordsChangeNothing := by
  refine ⟨exec_sys, exec_rsv5, exec_rsv8, exec_rsv9, exec_rsvE, exec_rsvF, fun s hf hpc hrow => ?_⟩
  have hcount := SameExcept.countAndTick { s with pc := s.pc + 2, redrawReq := false }
  have hadvance : SameExcept [] [.pc, .redrawReq] s { s with pc := s.pc + 2, redrawReq := false } := by
    apply SameExcept.of_fields <;> simp
  exact ⟨_, step_of_mem_restRows hf hpc hrow, hcount.pc_eq (by simp), State.icount_countAndTick _,
    (hadvance.trans hcount).mono (by simp) (by simp)⟩

/-- Settles O4: each worked word is computed, and the two worked no-operations answer the state they are given. -/
theorem workedEncodingsAreAsListed : Obligations.WorkedEncodingsAreAsListed := by
  refine ⟨by decide, by decide, by decide, by decide, by decide, by decide, by decide, ?_, by decide, ?_⟩
  · exact ⟨by decide, by decide, by decide, by decide, exec_rsv5 1 2 1⟩
  · exact ⟨by decide, by decide, exec_sys 0x0E1⟩

end Sys2Proof
end

section
/-! SUPPORT. The two ends of a step of a fetching core: the instruction's answer finished, with what the count and the
tick make of it, and the halt at the sentinel (40_run_loop.md R100 to R107). -/

namespace Sys2Proof.Machine

/-! ## The count and the tick -/

theorem State.finish_eq_ite (s : State) : s.finish = if s.hold = none then s.countAndTick else s := by
  split_ifs with h
  · exact State.finish_free h
  · exact State.finish_held h

/-- A count that comes round to 0 ticks: the frame is presented if it changed, `changed` is cleared and both timers go
down (40_run_loop.md R106, R107). -/
theorem State.countAndTick_of_due {s : State} (h : s.countAndTick.icount = 0) :
    s.countAndTick.presented = (if s.changed then some s.framebuffer else none) ∧ s.countAndTick.changed = false ∧
      s.countAndTick.dt.toNat = s.dt.toNat - 1 ∧ s.countAndTick.st.toNat = s.st.toNat - 1 := by
  obtain ⟨-, he⟩ | ⟨-, hne, he⟩ := s.countAndTick_cases
  · rw [he]
    exact ⟨rfl, rfl, toNat_timerDown s.dt, toNat_timerDown s.st⟩
  · rw [State.icount_countAndTick] at h
    exact absurd h hne

/-- Any other count is only a count: with the pulse down nothing is presented, and `changed` and the timers stay
(40_run_loop.md R105, R106). -/
theorem State.countAndTick_of_not_due {s : State} (hq : s.redrawReq = false) (h : s.countAndTick.icount ≠ 0) :
    s.countAndTick.presented = none ∧ s.countAndTick.changed = s.changed ∧ s.countAndTick.dt = s.dt ∧
      s.countAndTick.st = s.st := by
  obtain ⟨-, he⟩ | ⟨-, -, he⟩ := s.countAndTick_cases
  · rw [he] at h
    exact absurd rfl h
  · rw [he]
    exact ⟨by simp [State.presented, hq], rfl, rfl, rfl⟩

end Sys2Proof.Machine

namespace Sys2Proof

open Sys2Proof.Machine

/-! ## The fetched instruction -/

/-- The instruction that a fetching core runs leaves the count as the step found it and the pulse down
(40_run_loop.md R105, 60_exceptions.md R223). -/
theorem exec_fetched_icount_redrawReq {i : Instr} {s u : State}
    (h : exec i { s.afterFetch with pc := s.pc + 2, redrawReq := false } = .next u) :
    u.icount = s.icount ∧ u.redrawReq = false :=
  ⟨((exec_frame h).icount_eq (icount_not_mem_touchedParts i)).trans ((SameExcept.fetched s).icount_eq (by simp)),
    (exec_frame h).redrawReq_eq (redrawReq_not_mem_touchedParts i)⟩

/-- What the halting step leaves (40_run_loop.md R103). -/
theorem SameExcept.halted (s : State) :
    SameExcept [] [.run, .redrawReq, .stray] s { s.afterFetch with run := .halted, redrawReq := false } := by
  obtain ⟨d, h⟩ := s.afterFetch_eq
  rw [h]
  apply SameExcept.of_fields <;> simp

end Sys2Proof
end

section
/-! PROOFS. The statements of the family 40_run_loop.md. -/

namespace Sys2Proof

open Sys2Proof.Machine

/-- Settles O48: the step is the instruction's answer counted, and the count either ticks or changes itself alone. -/
theorem eighthInstructionTicks : Obligations.EighthInstructionTicks := by
  intro s t u hf hne hu hfree hstep
  obtain ⟨hcount, hpulse⟩ := exec_fetched_icount_redrawReq hu
  obtain rfl : u.countAndTick = t := by
    rw [step_of_fetch_next hf rfl hne hu, State.finish_free hfree] at hstep
    injection hstep
  refine ⟨?_, State.countAndTick_of_due, State.countAndTick_of_not_due hpulse, SameExcept.countAndTick u⟩
  rw [State.icount_countAndTick, hcount]

/-- Settles O42: the second clause is the step's own law; a fetch inside memory is its case in which the word is the
two bytes at `PC` and the fetch changes nothing. -/
theorem stepRunsTheDecodedInstruction : Obligations.StepRunsTheDecodedInstruction := by
  refine and_iff_right_of_imp (fun hlaw s i hf hpc hd hi => ?_) |>.2 fun s i hf hd hi => ?_
  · obtain ⟨hw, hs⟩ := State.readWord_inside hpc
    have hword : decodeWord (s.readWord s.pc.toNat) = i := by
      rw [hw]
      injection hd with hd
      exact congrArg Prod.fst hd
    have hstep := hlaw s i hf hword hi
    rwa [hs] at hstep
  · obtain ⟨u, hu⟩ := exec_total i { s.afterReadWord s.pc.toNat with pc := s.pc + 2, redrawReq := false }
    rw [step_of_fetch_next hf hd hi hu, hu]
    exact congrArg _ u.finish_eq_ite

/-- Settles O43: the sentinel's frame is `run` alone; the step that fetches it adds the fetch and the pulse. -/
theorem haltingFetchChangesOnlyRun : Obligations.HaltingFetchChangesOnlyRun := by
  refine ⟨fun s => ⟨_, exec_halt s, rfl, exec_frame (exec_halt s)⟩, fun s hf hw => ?_⟩
  have hstray (hpc : PcInMemory s) : s.afterFetch.stray = s.stray :=
    congrArg State.stray (State.readWord_inside hpc).2
  exact ⟨_, step_of_fetch_halt hf (decodeWord_eq_halt.2 hw), rfl, rfl, hstray, SameExcept.halted s⟩

/-- Settles O45: each meaning answers a next state outright. -/
theorem everyInstructionAnswersANextState : Obligations.EveryInstructionAnswersANextState :=
  exec_total

end Sys2Proof
end

section
/-! SUPPORT. What control transfer is made of: zero-extended operands, a two-byte read byte by byte, and a word pushed
and read back (41_control.md R121 to R124). -/

namespace Sys2Proof.Machine

/-! ## Operands as numbers -/

theorem toNat_addrOperand (nnn : Addr12) : (addrOperand nnn).toNat = nnn.toNat :=
  BitVec.toNat_setWidth_of_le (by decide)

theorem toNat_byteToWord (b : Byte) : (byteToWord b).toNat = b.toNat :=
  BitVec.toNat_setWidth_of_le (by decide)

/-- `nnn + V[0]` does not wrap (41_control.md R124). -/
theorem toNat_addrOperand_add_byteToWord (nnn : Addr12) (b : Byte) :
    (addrOperand nnn + byteToWord b).toNat = nnn.toNat + b.toNat := by
  have hn := nnn.isLt
  have hb := b.isLt
  rw [BitVec.toNat_add, toNat_addrOperand, toNat_byteToWord]
  omega

/-! ## A two-byte read, byte by byte -/

theorem State.hiByte_readWord (s : State) (a : Nat) : hiByte (s.readWord a) = s.readByte a :=
  hiByte_joinBytes _ _

theorem State.loByte_readWord (s : State) (a : Nat) :
    loByte (s.readWord a) = (s.afterRead a).readByte (a + 1) :=
  loByte_joinBytes _ _

/-- Only the second byte of a word at 4095 lies outside memory, so it is the next stray answer (20_memory.md R57). -/
theorem State.loByte_readWord_4095 (s : State) :
    loByte (s.readWord 4095) = nthAnswer Config.strayByte s.stray 0 := by
  rw [State.loByte_readWord, State.afterRead_inside (by decide), State.readByte_outside (by decide),
    Draws.next_eq_nthAnswer]

/-- A word from 4096 on is the next two stray answers, high byte first (20_memory.md R55, R57). -/
theorem State.readWord_outside {s : State} {a : Nat} (h : 4096 ≤ a) :
    hiByte (s.readWord a) = nthAnswer Config.strayByte s.stray 0 ∧
      loByte (s.readWord a) = nthAnswer Config.strayByte s.stray 1 := by
  have h1 : 4096 ≤ a + 1 := by omega
  rw [State.hiByte_readWord, State.loByte_readWord, State.readByte_outside h, State.readByte_outside h1,
    State.afterRead_outside h, Draws.next_eq_nthAnswer, Draws.next_eq_nthAnswer, nthAnswer_advance]
  exact ⟨rfl, rfl⟩

/-- What a read answers does not depend on `PC`. -/
@[simp] theorem State.jumpTo_readWord (s : State) (w : Word) (a : Nat) :
    (s.jumpTo w).readWord a = s.readWord a :=
  (State.readWord_congr (State.jumpTo_byteAt s w) (State.jumpTo_stray s w) a).1

/-! ## A word pushed -/

theorem State.byteAt_push_sp {s : State} (h : s.sp.toNat < 4096) (w : Word) :
    (s.push w).byteAt s.sp.toNat = hiByte w := by
  rw [State.byteAt_push, if_neg (by omega), if_pos ⟨rfl, h⟩]

theorem State.byteAt_push_sp_succ {s : State} (h : s.sp.toNat + 1 < 4096) (w : Word) :
    (s.push w).byteAt (s.sp.toNat + 1) = loByte w := by
  rw [State.byteAt_push, if_pos ⟨rfl, h⟩]

/-- A push leaves every byte but the two of its word, and drops those from 4096 on (20_memory.md R58). -/
theorem State.byteAt_push_other {s : State} {a : Nat}
    (h : ¬ (a < 4096 ∧ (a = s.sp.toNat ∨ a = s.sp.toNat + 1))) (w : Word) :
    (s.push w).byteAt a = s.byteAt a := by
  rw [State.byteAt_push, if_neg (by omega), if_neg (by omega)]

/-- A pushed word whose bytes lie in memory reads back. -/
theorem State.readWord_push {s : State} (h : s.sp.toNat + 1 < 4096) (w : Word) :
    (s.push w).readWord s.sp.toNat = w := by
  obtain ⟨hread, -⟩ := State.readWord_inside (s := s.push w) h
  rw [hread, State.byteAt_push_sp (by omega), State.byteAt_push_sp_succ h, joinBytes_hi_lo]

theorem State.toNat_sp_push {s : State} (h : s.sp.toNat + 1 < 4096) (w : Word) :
    (s.push w).sp.toNat = s.sp.toNat + 2 := by
  rw [State.sp_push, BitVec.toNat_add]
  exact Nat.mod_eq_of_lt (by simp; omega)

end Sys2Proof.Machine
end

section
/-! PROOFS. The statements of the family 41_control.md. -/

namespace Sys2Proof

open Sys2Proof.Machine

/-- Settles O9: the push says which bytes and when `changed` is set, the jump adds `PC` alone. -/
theorem callPushesReturnAddress : Obligations.CallPushesReturnAddress := by
  intro nnn s
  refine ⟨decodeWord_encodeWord (.call nnn) rfl, _, exec_call nnn s, toNat_addrOperand nnn, State.sp_push s s.pc,
    fun h => ?_, fun h => ?_, fun a ha => State.byteAt_push_other ha s.pc, ?_, exec_frame (exec_call nnn s)⟩
  · rw [State.jumpTo_byteAt, State.byteAt_push_sp h, toNat_hiByte]
  · rw [State.jumpTo_byteAt, State.byteAt_push_sp_succ h, toNat_loByte]
  · simp only [State.jumpTo_changed, State.changed_push, Bool.or_eq_true, decide_eq_true_eq, or_assoc]

/-- Settles O10: the return reads the word at the new `SP`, whose bytes are memory's below 4096 and stray answers from
there on. -/
theorem returnPopsProgramCounter : Obligations.ReturnPopsProgramCounter := by
  refine ⟨decodeWord_encodeWord .ret rfl, fun s => ⟨_, exec_ret_eq s, rfl, ?_, fun h => ?_, fun h => ?_, fun h => ?_,
    State.readWord_outside, exec_frame (exec_ret_eq s)⟩⟩
  · rw [Bool.or_eq_true, decide_eq_true_eq]
  · rw [State.hiByte_readWord, State.readByte_inside h]
  · obtain ⟨hread, hafter⟩ := State.readWord_inside (s := s) h
    dsimp only
    rw [hread, hafter, loByte_joinBytes]
    exact ⟨rfl, rfl⟩
  · dsimp only
    rw [h, State.loByte_readWord_4095]

/-- Settles O11: the return reads, at the `SP` of before the call, the word that the call pushed there. -/
theorem returnAfterCallRestoresPcAndSp : Obligations.ReturnAfterCallRestoresPcAndSp := by
  intro nnn s t p hroom hcall
  obtain rfl : (s.push s.pc).jumpTo (addrOperand nnn) = t := by
    rw [exec_call] at hcall
    injection hcall
  have hsp : (s.push s.pc).sp - 2 = s.sp := by rw [State.sp_push, BitVec.add_sub_cancel]
  refine ⟨_, exec_ret_eq (((s.push s.pc).jumpTo (addrOperand nnn)).jumpTo p), ?_, hsp, fun hbase => ?_⟩
  · simp only [State.jumpTo_readWord, State.jumpTo_sp, hsp, State.readWord_push hroom]
  · have hno : ¬ (s.push s.pc).sp.toNat < 0xEA2 := by
      rw [State.toNat_sp_push hroom]
      omega
    simp only [State.jumpTo_uflow, State.jumpTo_sp, hno, decide_false, Bool.or_false]
    exact (SameExcept.push s s.pc).uflow_eq (by simp)

/-- Settles O7: the target is the operand zero-extended, and the jump's frame leaves `PC` alone out. -/
theorem jumpSetsPcToTarget : Obligations.JumpSetsPcToTarget := fun nnn s =>
  ⟨decodeWord_encodeWord (.jp nnn) rfl, _, exec_jp nnn s, toNat_addrOperand nnn, exec_frame (exec_jp nnn s)⟩

/-- Settles O8: twelve bits and eight sum to at most 0x10FE, so sixteen hold the sum. -/
theorem jumpWithOffsetAddsV0 : Obligations.JumpWithOffsetAddsV0 := fun nnn s =>
  ⟨decodeWord_encodeWord (.jpV0 nnn) rfl, _, exec_jpV0 nnn s, toNat_addrOperand_add_byteToWord nnn _,
    exec_frame (exec_jpV0 nnn s)⟩

end Sys2Proof
end

section
/-! SUPPORT. Where a skip on a comparison of two bytes leaves `PC` (42_skip.md R130 to R134). -/

namespace Sys2Proof.Machine

theorem State.pc_skipIf (s : State) (c : Bool) : (s.skipIf c).pc = if c then s.pc + 2 else s.pc := by
  rw [State.skipIf_eq]

theorem State.pc_skipIf_beq (s : State) (a b : Byte) :
    (s.skipIf (a == b)).pc = if a = b then s.pc + 2 else s.pc := by
  simp only [State.pc_skipIf, beq_iff_eq]

theorem State.pc_skipIf_bne (s : State) (a b : Byte) :
    (s.skipIf (a != b)).pc = if a = b then s.pc else s.pc + 2 := by
  simp only [State.pc_skipIf, bne_iff_ne, ne_eq, ite_not]

end Sys2Proof.Machine
end

section
/-! PROOFS. The statements of the family 42_skip.md. -/

namespace Sys2Proof

open Sys2Proof.Machine

/-- Settles O13: each is one skip, on the comparison of `V[x]` with `kk`, and the skip's frame leaves `PC` alone out. -/
theorem immediateSkipsTestVx : Obligations.ImmediateSkipsTestVx := fun x kk s =>
  ⟨decodeWord_encodeWord (.seImm x kk) rfl, decodeWord_encodeWord (.sneImm x kk) rfl,
    ⟨_, exec_seImm x kk s, State.pc_skipIf_beq s _ kk, SameExcept.skipIf s _⟩,
    ⟨_, exec_sneImm x kk s, State.pc_skipIf_bne s _ kk, SameExcept.skipIf s _⟩⟩

/-- Settles O14: each is one skip, on the comparison of the two registers; when they are one register the comparison is
an equality of a byte with itself. -/
theorem registerSkipsCompareVxVy : Obligations.RegisterSkipsCompareVxVy := by
  intro x y s
  have hse := State.pc_skipIf_beq s (s.readV x) (s.readV y)
  have hsne := State.pc_skipIf_bne s (s.readV x) (s.readV y)
  have hsame (hxy : x = y) : s.readV x = s.readV y := congrArg s.readV hxy
  exact ⟨⟨_, exec_seReg x y s, hse, fun hxy => hse.trans (if_pos (hsame hxy)), SameExcept.skipIf s _⟩,
    ⟨_, exec_sneReg x y s, hsne, fun hxy => hsne.trans (if_pos (hsame hxy)), SameExcept.skipIf s _⟩⟩

end Sys2Proof
end

section
/-! SUPPORT. The difference of two bytes as a number, and `VF` after a write of another register (43_alu.md R141, R146,
R147, R150). -/

namespace Sys2Proof.Machine

/-- A byte difference with the borrow spelt out (43_alu.md R147, R150). -/
theorem toNat_byte_sub (a b : Byte) :
    (a - b).toNat = if b.toNat ≤ a.toNat then a.toNat - b.toNat else a.toNat + 256 - b.toNat := by
  split
  case isTrue h => exact BitVec.toNat_sub_of_le h
  case isFalse h =>
    rw [BitVec.toNat_sub_of_lt (Nat.lt_of_not_le h)]
    omega

theorem State.readV_vf_writeV (s : State) {x : Reg} (b : Byte) (h : x ≠ 15) :
    (s.writeV x b).readV 15 = s.readV 15 :=
  State.readV_writeV_other s b h.symm

end Sys2Proof.Machine
end

section
/-! PROOFS. The statements of the family 43_alu.md. -/

namespace Sys2Proof

open Sys2Proof.Machine

/-- Settles O15: the load is one register write, whose frame leaves `V[x]` alone out. -/
theorem loadImmediateWritesVx : Obligations.LoadImmediateWritesVx := fun x kk s =>
  ⟨decodeWord_encodeWord (.ldImm x kk) rfl, _, exec_ldImm x kk s, State.readV_writeV_same s x kk,
    SameExcept.writeV s x kk⟩

/-- Settles O16: the sum of two bytes is the sum of their numbers modulo 256, and its write is to `V[x]` alone. -/
theorem addImmediateWrapsAndSetsNoFlag : Obligations.AddImmediateWrapsAndSetsNoFlag := by
  intro x kk s
  refine ⟨decodeWord_encodeWord (.addImm x kk) rfl, _, exec_addImm x kk s, ?_, State.readV_vf_writeV s _,
    SameExcept.writeV s x _⟩
  rw [State.readV_writeV_same, BitVec.toNat_add]

/-- Settles O17: each is one write to `V[x]`, of `V[y]` or of the two old values combined bit by bit. -/
theorem moveAndLogicActBitwise : Obligations.MoveAndLogicActBitwise := by
  intro x y s
  refine ⟨⟨_, exec_ldReg x y s, State.readV_writeV_same s x _, SameExcept.writeV s x _⟩,
    ⟨_, exec_orReg x y s, SameExcept.writeV s x _, fun k => ?_⟩,
    ⟨_, exec_andReg x y s, SameExcept.writeV s x _, fun k => ?_⟩,
    ⟨_, exec_xorReg x y s, SameExcept.writeV s x _, fun k => ?_⟩⟩
  · rw [State.readV_writeV_same, BitVec.getLsbD_or]
  · rw [State.readV_writeV_same, BitVec.getLsbD_and]
  · rw [State.readV_writeV_same, BitVec.getLsbD_xor]

/-- Settles O18: each is one write to `V[x]`, of the byte sum or of the byte difference with its borrow spelt out. -/
theorem addAndSubtractWrapAndLeaveVF : Obligations.AddAndSubtractWrapAndLeaveVF := by
  intro x y s
  refine ⟨decodeWord_encodeWord (.addReg x y) rfl, decodeWord_encodeWord (.subReg x y) rfl,
    ⟨_, exec_addReg x y s, ?_, State.readV_vf_writeV s _, SameExcept.writeV s x _⟩,
    ⟨_, exec_subReg x y s, ?_, State.readV_vf_writeV s _, SameExcept.writeV s x _⟩⟩
  · rw [State.readV_writeV_same, BitVec.toNat_add]
  · rw [State.readV_writeV_same, toNat_byte_sub]

/-- Settles O19: each is one write to `V[x]`, of half or twice its old value or of the difference from `V[y]`. -/
theorem shiftsAndReverseSubtractLeaveVF : Obligations.ShiftsAndReverseSubtractLeaveVF := by
  intro x y s
  refine ⟨⟨_, exec_shr x y s, ?_, SameExcept.writeV s x _⟩, ⟨_, exec_shl x y s, ?_, SameExcept.writeV s x _⟩,
    ⟨_, exec_subn x y s, ?_, SameExcept.writeV s x _⟩⟩
  · rw [State.readV_writeV_same, BitVec.toNat_ushiftRight, Nat.shiftRight_one]
  · rw [State.readV_writeV_same, BitVec.toNat_shiftLeft, Nat.shiftLeft_eq, Nat.pow_one]
  · rw [State.readV_writeV_same, toNat_byte_sub]

end Sys2Proof
end

section
/-! SUPPORT. The queries of a frame and who makes them, and the packed digits as a number (44_index_random.md R161,
R164). -/

namespace Sys2Proof.Machine

/-! ## Packed digits -/

/-- Two nibbles below a number do not overlap it or each other, so their disjunction is their sum. -/
theorem shiftLeft_or_nibbles {h d o : Nat} (hd : d < 16) (ho : o < 16) :
    h <<< 8 ||| d <<< 4 ||| o = 256 * h + 16 * d + o := by
  have hlow : d <<< 4 ||| o = 16 * d + o := by
    rw [← Nat.shiftLeft_add_eq_or_of_lt (i := 4) ho, Nat.shiftLeft_eq, Nat.mul_comm]
  rw [Nat.or_assoc, hlow, ← Nat.shiftLeft_add_eq_or_of_lt (i := 8) (by omega), Nat.shiftLeft_eq]
  omega

/-- A byte has at most three decimal digits, and no digit spills out of its nibble (44_index_random.md R164). -/
theorem toNat_packedDigits (b : Byte) :
    (packedDigits b).toNat = 256 * (b.toNat / 100) + 16 * (b.toNat / 10 % 10) + b.toNat % 10 := by
  have hb := b.isLt
  rw [← shiftLeft_or_nibbles (by omega) (by omega)]
  simp only [packedDigits, BitVec.toNat_or, BitVec.toNat_shiftLeft, BitVec.toNat_ofNat, Nat.shiftLeft_eq]
  congr 1
  · congr 1 <;> omega
  · omega

end Sys2Proof.Machine

namespace Sys2Proof

open Sys2Proof.Machine

/-! ## Queries of the host -/

section
variable {regs : List Reg} {parts : List Part} {s t : State}

theorem SameExcept.rnd_eq (h : SameExcept regs parts s t) (hp : Part.rnd ∉ parts) : t.rnd = s.rnd := by
  obtain ⟨-, -, -, -, -, -, -, -, -, -, -, -, -, hrnd, -⟩ := h; exact hrnd hp

theorem SameExcept.keys_eq (h : SameExcept regs parts s t) (hp : Part.keys ∉ parts) : t.keys = s.keys := by
  obtain ⟨-, -, -, -, -, -, -, -, -, -, -, -, -, -, hk, -⟩ := h; exact hk hp

end

/-- Only `Cxkk` takes a random answer (44_index_random.md R161). -/
theorem rnd_mem_touchedParts {i : Instr} (h : Part.rnd ∈ touchedParts i) : ∃ x kk, i = .rnd x kk := by
  cases i <;> simp [touchedParts] at h ⊢

/-- Only the two key skips and the key wait sample the key port (46_keypad.md R182, R185). -/
theorem keys_mem_touchedParts {i : Instr} (h : Part.keys ∈ touchedParts i) :
    ∃ x, i = .skp x ∨ i = .sknp x ∨ i = .ldVxK x := by
  cases i <;> simp [touchedParts] at h ⊢

end Sys2Proof
end

section
/-! PROOFS. The statements of the family 44_index_random.md. -/

namespace Sys2Proof

open Sys2Proof.Machine

/-- Settles O22: the digits are the quotients and remainders that the packing takes, each below 10. -/
theorem packedDigitsOfVxGoToI : Obligations.PackedDigitsOfVxGoToI := by
  intro x s
  refine ⟨_, (s.readV x).toNat / 100, (s.readV x).toNat / 10 % 10, (s.readV x).toNat % 10, exec_ldB x s, ?_,
    Nat.mod_lt _ (by decide), Nat.mod_lt _ (by decide), toNat_packedDigits _, SameExcept.writeI s _⟩
  omega

/-- Settles O59, from the frame of each instruction. -/
theorem onlyTheirInstructionsQueryTheHost : Obligations.OnlyTheirInstructionsQueryTheHost := fun _ _ _ h =>
  ⟨fun hne => rnd_mem_touchedParts (not_imp_comm.1 (exec_frame h).rnd_eq hne),
    fun hne => keys_mem_touchedParts (not_imp_comm.1 (exec_frame h).keys_eq hne)⟩

/-- Settles O20: the load is one write of `I`, of the zero-extended operand. -/
theorem loadIndexWritesI : Obligations.LoadIndexWritesI := fun nnn s =>
  ⟨decodeWord_encodeWord (.ldI nnn) rfl, _, exec_ldI nnn s, toNat_addrOperand nnn, SameExcept.writeI s _⟩

/-- Settles O21: each is one write of `I`; the sum wraps at sixteen bits, and five times a byte does not. -/
theorem indexArithmeticOnVx : Obligations.IndexArithmeticOnVx := by
  intro x s
  refine ⟨⟨_, exec_addI x s, ?_, SameExcept.writeI s _⟩, ⟨_, exec_ldF x s, ?_, SameExcept.writeI s _⟩⟩
  · rw [State.writeI_i, BitVec.toNat_add, toNat_byteToWord]
  · have hb := (s.readV x).isLt
    rw [State.writeI_i, BitVec.toNat_mul, toNat_byteToWord]
    exact Nat.mod_eq_of_lt (by simp; omega)

/-- Settles O23: one answer is taken and written to `V[x]` under the mask, whose zero bits the conjunction clears. -/
theorem randomByteIsMasked : Obligations.RandomByteIsMasked := by
  intro x kk s
  refine ⟨_, exec_rnd x kk s, ?_, fun k hk => ?_, nthAnswer_advance Config.rndByte s.rnd,
    exec_frame (exec_rnd x kk s)⟩
  · rw [State.readV_writeV_same, State.rndByte, Draws.next_eq_nthAnswer]
  · rw [State.readV_writeV_same, BitVec.getLsbD_and, hk, Bool.and_false]

end Sys2Proof
end

section
/-! SUPPORT. The framebuffer after a clear, and the sprite draw byte by byte: when two draws have the same sprite, how
the mask at a byte grows with the rows, and which bits a collision is about (45_display.md R170 to R178). -/

namespace Sys2Proof.Machine

theorem State.framebuffer_eq_replicate {s : State} {b : Byte} (h : ∀ a, 0xF00 ≤ a → a < 0x1000 → s.byteAt a = b) :
    s.framebuffer = List.replicate 256 b := by
  refine List.eq_replicate_iff.2 ⟨by simp [State.framebuffer], fun c hc => ?_⟩
  obtain ⟨k, hk, rfl⟩ := List.mem_map.1 hc
  have hlt : k < 256 := List.mem_range.1 hk
  exact h _ (by simp) (by simp; omega)

/-- What a clear leaves in memory (45_display.md R170). -/
theorem byteAt_exec_cls {s t : State} (h : exec .cls s = .next t) (a : Nat) :
    t.byteAt a = if 0xF00 ≤ a ∧ a < 0x1000 then 0 else s.byteAt a := by
  rw [exec_cls] at h
  injection h with h
  rw [← h, State.markChanged_byteAt, State.byteAt_zeroBytes]
  exact if_congr (by omega) rfl rfl

theorem collisionValue_eq_zero_or_one (coll : Bool) : collisionValue coll = 0 ∨ collisionValue coll = 1 := by
  cases coll <;> decide

theorem collisionValue_eq_one {coll : Bool} : collisionValue coll = 1 ↔ coll = true := by
  cases coll <;> decide

end Sys2Proof.Machine

namespace Sys2Proof

open Sys2Proof.Machine

/-! ## The sprite and the mask -/

variable {x y : Reg} {n : Nibble} {s t : State}

/-- A byte that the rows before row `k` touch is touched by no later row, so its mask is complete. -/
theorem toggleMask_of_drawTouches {n k a : Nat} (h : DrawTouches s x y k a) (hk : k ≤ n) :
    toggleMask s x y n a = toggleMask s x y k a := by
  obtain ⟨-, r, hr, ha⟩ := h
  have hrow : a = drawAddr s x y r ∨ a = drawAddr s x y r + 1 := ha.imp_right And.right
  rw [toggleMask_of_row s x y (hr.trans_le hk) hrow, toggleMask_of_row s x y hr hrow]

/-- A source byte that no row before touches is the byte memory held before the draw. -/
theorem sourceByte_untouched {r : Nat} (h : s.i.toNat + r < 4096) (hun : ¬ DrawTouches s x y r (s.i.toNat + r)) :
    sourceByte s x y r = s.byteAt (s.i.toNat + r) := by
  rw [sourceByte_inside s x y h, toggleMask_untouched hun]
  exact BitVec.xor_zero

/-- The sprite depends on memory, the answers of the reads outside it, `I`, and the coordinates modulo the screen. -/
theorem sourceByte_congr (hm : ∀ a, t.byteAt a = s.byteAt a) (hi : t.i = s.i) (hd : t.stray = s.stray)
    (hx : (t.readV x).toNat % 64 = (s.readV x).toNat % 64)
    (hy : (t.readV y).toNat % 32 = (s.readV y).toNat % 32) (r : Nat) : sourceByte t x y r = sourceByte s x y r := by
  induction r using Nat.strong_induction_on with
  | _ r ih =>
    rcases Nat.lt_or_ge (s.i.toNat + r) 4096 with h | h
    · rw [sourceByte_inside s x y h, sourceByte_inside t x y (hi ▸ h), hi, hm, toggleMask_congr _ hx hy ih]
    · rw [sourceByte_outside s x y h, sourceByte_outside t x y (hi ▸ h), hi, hd]

/-- A draw leaves a byte whose mask is zero. -/
theorem byteAt_exec_drw_of_toggleMask_eq_zero (h : exec (.drw x y n) s = .next t) {a : Nat}
    (hmask : toggleMask s x y n.toNat a = 0) : t.byteAt a = s.byteAt a := by
  rw [byteAt_exec_drw h, hmask]
  exact BitVec.xor_zero

/-- A draw leaves a sprite below the framebuffer as it is. -/
theorem sourceByte_exec_drw (h : exec (.drw x y n) s = .next t) {r : Nat} (hr : s.i.toNat + r < 0xF00) :
    sourceByte t x y r = sourceByte s x y r := by
  have hi : t.i = s.i := (exec_frame h).i_eq (by simp [touchedParts])
  rw [sourceByte_below s x y hr, sourceByte_below t x y (hi ▸ hr), hi,
    byteAt_exec_drw_of_toggleMask_eq_zero h (toggleMask_outside_framebuffer s x y _ (.inl hr))]

/-- A draw whose rows all read inside memory takes no answer from outside it (20_memory.md R57). -/
theorem stray_exec_drw (h : exec (.drw x y n) s = .next t) (hsrc : s.i.toNat + n.toNat ≤ 4096) :
    t.stray = s.stray := by
  rw [exec_drw] at h
  injection h with h
  rw [← h, State.markChanged_stray, State.setCollision_stray]
  exact Blit.stray_drawRows _ _ _ _ _ hsrc

/-! ## The collision -/

/-- A draw's collision, over the states before and after it: some bit of memory went from 1 to 0. -/
theorem readV_vf_exec_drw_eq_one (h : exec (.drw x y n) s = .next t) :
    t.readV 15 = 1 ↔ ∃ a k, (s.byteAt a).getLsbD k = true ∧ (t.byteAt a).getLsbD k = false := by
  rw [readV_vf_exec_drw h, collisionValue_eq_one]
  rw [exec_drw] at h
  injection h with h
  simp only [← h, State.markChanged_byteAt, State.setCollision_byteAt]
  exact Blit.coll_drawRows _ _ _ _ s

/-- A byte that a draw alters lies in the framebuffer (45_display.md R175). -/
theorem mem_framebuffer_of_exec_drw_alters (h : exec (.drw x y n) s = .next t) {a : Nat}
    (hne : t.byteAt a ≠ s.byteAt a) : 0xF00 ≤ a ∧ a < 0x1000 := by
  by_contra hout
  exact hne (byteAt_exec_drw_of_toggleMask_eq_zero h (toggleMask_outside_framebuffer s x y _ (by omega)))

/-- Two draws that go from the same memory to the same memory leave the same `VF`. -/
theorem readV_vf_exec_drw_congr {s' t' : State} (h : exec (.drw x y n) s = .next t)
    (h' : exec (.drw x y n) s' = .next t') (hs : ∀ a, s'.byteAt a = s.byteAt a) (ht : ∀ a, t'.byteAt a = t.byteAt a) :
    t'.readV 15 = t.readV 15 := by
  have hone : t'.readV 15 = 1 ↔ t.readV 15 = 1 := by
    rw [readV_vf_exec_drw_eq_one h, readV_vf_exec_drw_eq_one h']
    simp only [hs, ht]
  rw [readV_vf_exec_drw h, readV_vf_exec_drw h'] at hone ⊢
  rw [collisionValue_eq_one, collisionValue_eq_one] at hone
  exact congrArg collisionValue (Bool.eq_iff_iff.2 hone)

end Sys2Proof
end

section
/-! PROOFS. The statements of the family 45_display.md. -/

namespace Sys2Proof

open Sys2Proof.Machine

/-- Settles O25: the sprite is the bytes the rows read, and the draw's mask is their parts at the rows' bytes and zero
at every other; a byte that an earlier row drew has its final value when a later row reads it. -/
theorem drawXorsEachRowIntoItsBytes : Obligations.DrawXorsEachRowIntoItsBytes := by
  intro x y n s
  have h := exec_drw x y n s
  refine ⟨_, sourceByte s x y, h, fun r _ => sourceByte_outside s x y, fun r _ => sourceByte_untouched,
    fun r hr hin htouch => ?_, fun r hr h4 => ?_, fun r hr hs h4 => ?_,
    fun a hun => byteAt_exec_drw_of_toggleMask_eq_zero h (toggleMask_untouched hun), changed_of_exec_drw h,
    stray_exec_drw h, exec_frame h⟩
  · rw [sourceByte_inside s x y hin, byteAt_exec_drw h, toggleMask_of_drawTouches htouch hr.le]
  · rw [byteAt_exec_drw h, toggleMask_left s x y hr h4]
  · rw [byteAt_exec_drw h, toggleMask_right s x y hr hs h4]

/-- Settles O26: the rows report exactly the bits that go out, and these lie in the framebuffer. -/
theorem collisionFlagIffABitTurnsOff : Obligations.CollisionFlagIffABitTurnsOff := by
  intro x y n s t h
  refine ⟨readV_vf_exec_drw h ▸ collisionValue_eq_zero_or_one _, (readV_vf_exec_drw_eq_one h).trans ?_⟩
  constructor
  · rintro ⟨a, k, hon, hoff⟩
    have hne : t.byteAt a ≠ s.byteAt a := fun e => by simp [e, hon] at hoff
    obtain ⟨hlo, hhi⟩ := mem_framebuffer_of_exec_drw_alters h hne
    exact ⟨a, k, hlo, hhi, hon, hoff⟩
  · rintro ⟨a, k, -, -, hon, hoff⟩
    exact ⟨a, k, hon, hoff⟩

/-- Settles O27: the second draw reads the same sprite, so it XORs the same mask into memory again. -/
theorem drawingTwiceRestoresMemory : Obligations.DrawingTwiceRestoresMemory := by
  intro x y n s t u hsrc h hx hy h'
  refine ⟨fun a => ?_, changed_of_exec_drw h, changed_of_exec_drw h'⟩
  have hmask : toggleMask t x y n.toNat a = toggleMask s x y n.toNat a :=
    toggleMask_congr a hx hy fun r hr => sourceByte_exec_drw h (by omega)
  rw [byteAt_exec_drw h', byteAt_exec_drw h, hmask, BitVec.xor_assoc, BitVec.xor_self, BitVec.xor_zero]

/-- Settles O28: the sprite and so the mask depend on the coordinates modulo the screen, and `VF` on memory alone. -/
theorem drawOriginWrapsModuloScreen : Obligations.DrawOriginWrapsModuloScreen := by
  intro x y n s s' t t' hmem hi hd hx hy h h'
  have hbefore : ∀ a, s'.byteAt a = s.byteAt a := State.byteAt_congr hmem
  have hafter : ∀ a, t'.byteAt a = t.byteAt a := fun a => by
    rw [byteAt_exec_drw h, byteAt_exec_drw h', hbefore,
      toggleMask_congr a hx hy fun r _ => sourceByte_congr hbefore hi hd hx hy r]
  exact ⟨hafter, readV_vf_exec_drw_congr h h' hbefore hafter⟩

/-- Settles O24: the clear is 256 byte writes from 0xF00 on, each of a zero. -/
theorem clearZeroesTheFramebuffer : Obligations.ClearZeroesTheFramebuffer := by
  refine ⟨decodeWord_encodeWord .cls rfl, fun s => ?_⟩
  have h := exec_cls s
  have hzero := fun a hlo hhi => (byteAt_exec_cls h a).trans (if_pos ⟨hlo, hhi⟩)
  exact ⟨_, h, changed_of_exec_cls h, hzero, State.framebuffer_eq_replicate hzero,
    fun a hout => (byteAt_exec_cls h a).trans (if_neg hout), exec_frame h⟩

/-- Settles O49: the instruction's answer has the zero frame and `changed` set, and the count of 7 comes round to 0,
so the tick presents it. -/
theorem clearThenTickPresentsTheZeroFrame : Obligations.ClearThenTickPresentsTheZeroFrame := by
  intro s hf hw h7
  have hcls : decodeWord s.fetchWord = .cls := hw ▸ clearZeroesTheFramebuffer.1
  have hne : decodeWord s.fetchWord ≠ .halt := by simp [hcls]
  obtain ⟨u, hu, hchanged, -, hframe, -, hsame⟩ :=
    clearZeroesTheFramebuffer.2 { s.afterFetch with pc := s.pc + 2, redrawReq := false }
  rw [← hcls] at hu
  have hfree : u.hold = none :=
    (hsame.hold_eq (by simp)).trans (((SameExcept.fetched s).hold_eq (by simp)).trans hf.2)
  have hstep := step_of_fetch_next hf rfl hne hu
  obtain ⟨hcount, htick, -⟩ := eighthInstructionTicks s _ u hf hne hu hfree hstep
  have hzero : u.finish.icount = 0 := by rw [hcount, h7]; rfl
  obtain ⟨hpresented, hcleared, -⟩ := htick hzero
  exact ⟨_, hstep, by rw [hpresented, if_pos hchanged, hframe], hcleared, hzero⟩

end Sys2Proof
end

section
/-! SUPPORT. The key port's answer in the two skips and in the key wait: the conditions as numbers, a sample of the
wait in each of its two outcomes, and the pulse after a count (46_keypad.md R180 to R182, 40_run_loop.md R106). -/

namespace Sys2Proof.Machine

/-! ## The skips' conditions -/

theorem State.keySample_eq_nthAnswer (s : State) : s.keySample = nthAnswer Config.keyPort s.keys 0 :=
  Draws.next_eq_nthAnswer Config.keyPort s.keys

theorem toNat_keyToByte (k : Nibble) : (keyToByte k).toNat = k.toNat :=
  BitVec.toNat_setWidth_of_le (by decide)

/-- A key equals the whole of a byte when the two numbers are equal (46_keypad.md R180, D19). -/
theorem keyToByte_eq_iff {k : Nibble} {b : Byte} : keyToByte k = b ↔ k.toNat = b.toNat := by
  rw [← BitVec.toNat_inj, toNat_keyToByte]

theorem State.pc_skipIf_keyEquals (s : State) (k : Nibble) (b : Byte) :
    (s.skipIf (keyEquals (some k) b)).pc = if k.toNat = b.toNat then s.pc + 2 else s.pc :=
  (s.pc_skipIf_beq (keyToByte k) b).trans (if_congr keyToByte_eq_iff rfl rfl)

theorem State.pc_skipIf_keyDiffers (s : State) (k : Nibble) (b : Byte) :
    (s.skipIf (keyDiffers (some k) b)).pc = if k.toNat = b.toNat then s.pc else s.pc + 2 :=
  (s.pc_skipIf_bne (keyToByte k) b).trans (if_congr keyToByte_eq_iff rfl rfl)

/-! ## One sample of the key wait -/

variable {s : State} {x : Reg}

theorem State.awaitKey_of_key {k : Nibble} (h : s.keySample = some k) :
    s.awaitKey x = { s.afterKey.writeV x (keyToByte k) with hold := none } := by
  simp [State.awaitKey, h]

theorem State.awaitKey_of_no_key (h : s.keySample = none) :
    s.awaitKey x = { s.afterKey with hold := some x } := by
  simp [State.awaitKey, h]

/-- A sample that finds a key in a core that is not held is the write to `V[x]` alone. -/
theorem State.awaitKey_of_free {k : Nibble} (hfree : s.hold = none) (h : s.keySample = some k) :
    s.awaitKey x = s.afterKey.writeV x (keyToByte k) := by
  rw [State.awaitKey_of_key h, ← hfree]
  rfl

/-- A sample that finds no key in a core already held takes its answer and does nothing else. -/
theorem State.awaitKey_of_held (hheld : s.hold = some x) (h : s.keySample = none) : s.awaitKey x = s.afterKey := by
  rw [State.awaitKey_of_no_key h, ← hheld]
  rfl

/-- A sample that finds a key leaves the core free. -/
theorem State.hold_awaitKey {k : Nibble} (h : s.keySample = some k) : (s.awaitKey x).hold = none := by
  rw [State.awaitKey_of_key h]

/-- A sample that finds a key writes it to `V[x]`, zero-extended. -/
theorem State.toNat_readV_awaitKey {k : Nibble} (h : s.keySample = some k) :
    ((s.awaitKey x).readV x).toNat = k.toNat := by
  rw [State.awaitKey_of_key h]
  exact (congrArg BitVec.toNat (s.afterKey.readV_writeV_same x _)).trans (toNat_keyToByte k)

/-! ## The pulse -/

/-- A count that ticks raises the pulse if the frame changed; any other count leaves it (40_run_loop.md R106). -/
theorem State.redrawReq_countAndTick (s : State) :
    s.countAndTick.redrawReq = if s.countAndTick.icount = 0 then s.changed else s.redrawReq := by
  rcases s.countAndTick_cases with ⟨-, h⟩ | ⟨-, hne, h⟩ <;> rw [h]
  · exact (if_pos rfl).symm
  · exact (if_neg hne).symm

end Sys2Proof.Machine

namespace Sys2Proof

open Sys2Proof.Machine

/-! ## Frames and the step of a held core -/

theorem SameExcept.beginStep (s : State) : SameExcept [] [.redrawReq] s s.beginStep := by simp [SameExcept]

theorem SameExcept.awaitKey_of_no_key {s : State} {x : Reg} (h : s.keySample = none) :
    SameExcept [] [.hold, .keys] s (s.awaitKey x) := by
  rw [State.awaitKey_of_no_key h]
  apply SameExcept.of_fields <;> simp

/-- The step of a held core that finds a key: the sample writes the register, frees the core and leaves the pulse down,
and the instruction is counted (46_keypad.md R182, 60_exceptions.md R222). -/
theorem step_of_held_key {s : State} {x : Reg} {k : Nibble} (hrun : s.run = .running) (hheld : s.hold = some x)
    (hkey : nthAnswer Config.keyPort s.keys 0 = some k) :
    ∃ u, step s = .next u.countAndTick ∧ u.hold = none ∧ (u.readV x).toNat = k.toNat ∧ u.redrawReq = false ∧
      SameExcept [x] [.redrawReq, .keys, .hold] s u := by
  have hfound : s.beginStep.keySample = some k := (State.keySample_eq_nthAnswer _).trans hkey
  have hfree : (s.beginStep.awaitKey x).hold = none := State.hold_awaitKey hfound
  have hsample := SameExcept.awaitKey s.beginStep x
  refine ⟨_, ?_, hfree, State.toNat_readV_awaitKey hfound, hsample.redrawReq_eq (by simp),
    (SameExcept.beginStep s).trans hsample⟩
  rw [step_of_held hrun hheld, State.finish_free hfree]

/-- A skip after one sample of the key port leaves the port one answer further on (46_keypad.md R183). -/
theorem nthAnswer_keys_skipIf_afterKey (s : State) (c : Bool) (k : Nat) :
    nthAnswer Config.keyPort (s.afterKey.skipIf c).keys k = nthAnswer Config.keyPort s.keys (k + 1) := by
  rw [(SameExcept.skipIf s.afterKey c).keys_eq (by simp), State.afterKey_keys, nthAnswer_advance]

end Sys2Proof
end

section
/-! PROOFS. The statements of the family 46_keypad.md. -/

namespace Sys2Proof

open Sys2Proof.Machine

/-- Settles O32: the first sample without a key sets `hold` alone, and one in a held core finds `hold` set already. -/
theorem keyWaitHoldsTheCoreUnchanged : Obligations.KeyWaitHoldsTheCoreUnchanged := by
  refine ⟨fun x s hnone => ?_, fun x s hrun hheld hnone => ?_⟩ <;> rw [← State.keySample_eq_nthAnswer] at hnone
  · refine ⟨_, exec_ldVxK x s, ?_, SameExcept.awaitKey_of_no_key hnone⟩
    rw [State.awaitKey_of_no_key hnone]
  · have hstep : step s = .next s.beginStep.afterKey := by
      rw [step_of_held hrun hheld, State.awaitKey_of_held (s := s.beginStep) hheld hnone,
        State.finish_held (by simp [hheld])]
    exact ⟨_, hstep, rfl, ((SameExcept.beginStep s).trans (SameExcept.afterKey _)).mono (by simp) (by simp)⟩

/-- Settles O33: the sample frees the core, so the step ends in a count, which ticks if due and keeps the register. -/
theorem keyEndsTheHold : Obligations.KeyEndsTheHold := by
  intro x k s hrun hheld hkey
  obtain ⟨u, hstep, hfree, hreg, hpulse, hsample⟩ := step_of_held_key hrun hheld hkey
  have hcount := SameExcept.countAndTick u
  have hchanged : u.changed = s.changed := hsample.changed_eq (by simp)
  have hdt : u.dt = s.dt := hsample.dt_eq (by simp)
  have hst : u.st = s.st := hsample.st_eq (by simp)
  refine ⟨_, hstep, ?_, ?_, ?_, fun hdue => ?_, fun hnot => ?_, (hsample.trans hcount).mono (by simp) (by simp)⟩
  · rw [hcount.hold_eq (by simp), hfree]
  · rw [hcount.readV_eq (by simp), hreg]
  · rw [State.icount_countAndTick, hsample.icount_eq (by simp)]
  · obtain ⟨-, hcleared, hdt', hst'⟩ := State.countAndTick_of_due hdue
    rw [State.redrawReq_countAndTick, if_pos hdue, ← hchanged, ← hdt, ← hst]
    exact ⟨rfl, hcleared, hdt', hst'⟩
  · obtain ⟨-, hchanged', hdt', hst'⟩ := State.countAndTick_of_not_due hpulse hnot
    rw [State.redrawReq_countAndTick, if_neg hnot]
    exact ⟨hpulse, hchanged'.trans hchanged, hdt'.trans hdt, hst'.trans hst⟩

/-- Settles O30: each is one skip after one sample, on the key found; no key meets neither condition. -/
theorem keySkipsQueryThePortOnce : Obligations.KeySkipsQueryThePortOnce := by
  intro x s
  rw [← State.keySample_eq_nthAnswer]
  refine ⟨⟨_, exec_skp x s, fun k hkey => ?_, fun hnone => ?_, nthAnswer_keys_skipIf_afterKey s _,
      exec_frame (exec_skp x s)⟩,
    ⟨_, exec_sknp x s, fun k hkey => ?_, fun hnone => ?_, nthAnswer_keys_skipIf_afterKey s _,
      exec_frame (exec_sknp x s)⟩⟩
  · rw [hkey, State.pc_skipIf_keyEquals, State.afterKey_pc]
  · rw [hnone]; rfl
  · rw [hkey, State.pc_skipIf_keyDiffers, State.afterKey_pc]
  · rw [hnone]; rfl

/-- Settles O31: in a core that is not held, a sample that finds a key is one write to `V[x]`. -/
theorem keyWaitCompletesOnAKey : Obligations.KeyWaitCompletesOnAKey := by
  intro x k s hfree hkey
  rw [← State.keySample_eq_nthAnswer] at hkey
  refine ⟨_, exec_ldVxK x s, State.toNat_readV_awaitKey hkey, ?_⟩
  rw [State.awaitKey_of_free hfree hkey]
  exact ((SameExcept.afterKey s).trans (SameExcept.writeV _ x _)).mono (by simp) (by simp)

end Sys2Proof
end

section
/-! PROOFS. The statements of the family 47_timers.md. -/

namespace Sys2Proof

open Sys2Proof.Machine

/-- Settles O34: the load is one update of `DT`, and the instruction's frame leaves `DT` alone out. -/
theorem delayTimerIsLoadedFromVx : Obligations.DelayTimerIsLoadedFromVx := fun x s =>
  ⟨decodeWord_encodeWord (.ldDtVx x) rfl, _, exec_ldDtVx x s, rfl, exec_frame (exec_ldDtVx x s)⟩

/-- Settles O35: the read is one register write, whose frame has no part of the state in it; the load is one update of
`ST`. -/
theorem delayTimerReadAndSoundTimerLoad : Obligations.DelayTimerReadAndSoundTimerLoad := fun x s =>
  ⟨⟨_, exec_ldVxDt x s, State.readV_writeV_same s x s.dt, SameExcept.writeV s x s.dt⟩,
    ⟨_, exec_ldStVx x s, rfl, exec_frame (exec_ldStVx x s)⟩⟩

end Sys2Proof
end

section
/-! SUPPORT. The answers of the block transfers in the terms of their statements: which bytes a store leaves, when it
marks the framebuffer changed, and what a load gives each register (48_block.md R200, R201). -/

namespace Sys2Proof

open Sys2Proof.Machine

variable {x r : Reg} {s t : State}

/-- The bytes a block store may change are those of its own addresses below 4096 (20_memory.md R58). -/
theorem sameBytesOutside_exec_ldMemVx (h : exec (.ldMemVx x) s = .next t) :
    SameBytesOutside (fun a => a < 4096 ∧ s.i.toNat ≤ a ∧ a ≤ s.i.toNat + x.val) s t := by
  intro a ha
  rw [exec_ldMemVx] at h
  injection h with h
  rw [← h]
  refine (State.byteAt_storeRegs _ _ s a).2 (or_iff_not_imp_right.2 fun h4 q hq hqa => ha ?_)
  have hqx : q.val ≤ x.val := (mem_regsThrough x q).1 hq
  omega

/-- A block store sets `changed` when a byte of it lies in the framebuffer (10_state.md R32). -/
theorem changed_exec_ldMemVx (h : exec (.ldMemVx x) s = .next t) :
    t.changed = true ↔ s.changed = true ∨
      ∃ q : Reg, q ≤ x ∧ 0xF00 ≤ s.i.toNat + q.val ∧ s.i.toNat + q.val < 4096 := by
  rw [exec_ldMemVx] at h
  injection h with h
  simp only [← h, State.changed_storeRegs, mem_regsThrough]

/-- A register that a block load reads from memory holds the byte at its address. -/
theorem readV_exec_ldVxMem_inside (h : exec (.ldVxMem x) s = .next t) (hr : r ≤ x)
    (h4 : s.i.toNat + r.val < 4096) : t.readV r = s.byteAt (s.i.toNat + r.val) := by
  rw [exec_ldVxMem] at h
  injection h with h
  rw [← h]
  exact State.readV_loadRegs_inside _ _ s ((mem_regsThrough x r).2 hr) h4

/-- A register that a block load reads from 4096 on holds a stray answer: the load's own addresses from 4096 up to the
register's count which one (20_memory.md R57). -/
theorem readV_exec_ldVxMem_outside (h : exec (.ldVxMem x) s = .next t) (hr : r ≤ x)
    (h4 : 4096 ≤ s.i.toNat + r.val) :
    t.readV r = nthAnswer Config.strayByte s.stray (s.i.toNat + r.val - max 4096 s.i.toNat) := by
  rw [exec_ldVxMem] at h
  injection h with h
  rw [← h, State.readV_loadRegs_outside _ _ s r ((mem_regsThrough x r).2 hr) h4 (pairwise_regsThrough x),
    length_filter_regsThrough _ x r hr]

/-- A block load whose last address is in memory takes no stray answer. -/
theorem stray_exec_ldVxMem (h : exec (.ldVxMem x) s = .next t) (h4 : s.i.toNat + x.val < 4096) :
    t.stray = s.stray := by
  rw [exec_ldVxMem] at h
  injection h with h
  rw [← h]
  refine State.stray_loadRegs_inside _ _ s fun q hq => ?_
  have hqx : q.val ≤ x.val := (mem_regsThrough x q).1 hq
  omega

end Sys2Proof
end

section
/-! PROOFS. The statements of the family 48_block.md. -/

namespace Sys2Proof

open Sys2Proof.Machine

/-- Settles O37: each clause is what the loop over the registers 0 to `x` leaves, written for the instruction. -/
theorem blockStoreWritesRegisters : Obligations.BlockStoreWritesRegisters := by
  intro x s
  have hexec := exec_ldMemVx x s
  exact ⟨_, hexec, fun _ hr h4 => byteAt_exec_ldMemVx hexec hr h4, sameBytesOutside_exec_ldMemVx hexec,
    changed_exec_ldMemVx hexec, exec_frame hexec⟩

/-- Settles O38: a register through `x` gets the byte at its address or a stray answer, and the instruction's frame
leaves out those registers and the stray answers alone. -/
theorem blockLoadReadsRegisters : Obligations.BlockLoadReadsRegisters := by
  intro x s
  have hexec := exec_ldVxMem x s
  have hframe := exec_frame hexec
  have habove : ∀ r : Reg, x < r → r ∉ regsThrough x := fun r hr hm => not_le.2 hr ((mem_regsThrough x r).1 hm)
  exact ⟨_, hexec, fun _ hr h4 => readV_exec_ldVxMem_inside hexec hr h4,
    fun _ hr h4 => readV_exec_ldVxMem_outside hexec hr h4, fun r hr => hframe.readV_eq (habove r hr),
    stray_exec_ldVxMem hexec, hframe⟩

/-- Settles O39: the load reads register `r` back from the address where the store put it, memory and `I` being the
same in between. -/
theorem blockLoadAfterStoreRestoresRegisters : Obligations.BlockLoadAfterStoreRestoresRegisters := by
  intro x s t t' u hdata hstore hmem hi hload r hr
  have hfit : s.i.toNat + r.val < 4096 := by
    have hrx : r.val ≤ x.val := hr
    unfold DataInMemory at hdata
    omega
  calc u.readV r
      = t'.byteAt (t'.i.toNat + r.val) := readV_exec_ldVxMem_inside hload hr (hi ▸ hfit)
    _ = t.byteAt (s.i.toNat + r.val) := by rw [hi, State.byteAt_congr hmem]
    _ = s.readV r := byteAt_exec_ldMemVx hstore hr hfit

end Sys2Proof
end

section
/-! PROOFS. The statements of the family 70_reset_and_hazards.md. -/

namespace Sys2Proof

open Sys2Proof.Machine

/-- Settles O52: the empty memory is canonical, no `Fx0A` holds the core and the pulse is down. -/
theorem resetStateHasTheInvariant : Obligations.ResetStateHasTheInvariant :=
  Inv.of_quiet (s := State.reset) rfl rfl rfl

end Sys2Proof
end
